-- ==== Sys2Proof/Word.lean ====
section
/-! DEFINITION. The word types of the block: every frame, operand and peer location is a whole byte (00_scope.md R7, R8),
a logical identifier is 32 bits wide. Bit 0 is the least significant bit of every value (R8, 93 G2). -/

namespace Sys2Proof

/-- `BYTE`: 8 bits (R7). -/
abbrev Byte := BitVec 8

/-- `ID_W`: a 32-bit logical identifier (R7). -/
abbrev Word32 := BitVec 32

end Sys2Proof
end

