-- ==== Sys2Proof/Config.lean ====
section
/-! DEFINITION. The implementation parameters of 00_scope.md R7. A parameter the spec decides is a constant with its value; a
parameter the spec leaves OPEN, and every oracle draw, is an `opaque` constant with no body, so that no proof can know it. -/

namespace Sys2Proof

/-- `MAX_BURST` (R7, D5): the longest burst, and the size of `RDATA` and `WDATA`. -/
abbrev Config.maxBurst : Nat := 16

/-- `DUMMY` (R7, D6): the byte driven while reply bytes are clocked in. -/
abbrev Config.dummy : Byte := 0x00#8

/-- `EXIDE_POS` (R7, D17): the extended-ID-enable bit is SIDL bit 3. -/
abbrev Config.exidePos : Nat := 3

/-- `STD_W` (R7): width of a standard identifier. -/
abbrev Config.stdWidth : Nat := 11

/-- `EXT_W` (R7): width of an extended identifier. -/
abbrev Config.extWidth : Nat := 29

/-- `T_SETTLE` in milliseconds (R7, R106, D19): at least 10, default 10. No rule depends on how long it is, and the untimed
model only has the settle-elapsed event, so nothing reads this value. -/
abbrev Config.settleMillis : Nat := 10

/-- `PEER_ADDR_NEXT(0xFF)` (R7, R44, D20), OPEN: the peer's next address after 0xFF in a burst. -/
opaque Config.peerAddrNext : Byte

/-- `PEER_BITMOD_OK` (R7, R40, D22), OPEN: the peer addresses where bit-modify is masked. -/
opaque Config.peerBitmodOk : Byte → Bool

/-- `PEER_RESET_IMAGE` (R7, R42, D23), OPEN: the peer's register values after a reset. -/
opaque Config.peerResetImage : Byte → Byte

/-- `PEER_STATUS` (R7, R41, D32), OPEN: the draws of bits 7..2 of the status byte, one for each position of `State.draws`. -/
opaque Config.peerStatus : Nat → BitVec 6

/-- Which receive buffers hold an unread message at a draw (R41): bit 0 for buffer 0, bit 1 for buffer 1. The peer's receive
hardware decides it, so it is an oracle draw. -/
opaque Config.rxUnread : Nat → BitVec 2

/-- The oracle byte of each draw (R9, R37, R43): what the peer clocks back where nothing is known about it. -/
opaque Config.oracle : Nat → Byte

/-- What a peer register holds when nothing has written it yet (R27: "unknown to the block"). Only the reference peer
(R52) is ever asked for it: every byte another peer returns is a draw of its own. -/
opaque Config.peerPowerOn : Byte → Byte

end Sys2Proof
end

