-- ==== Sys2Proof/Syntax.lean ====
section
/-! DEFINITION. The whole syntax: the command record of 30_encoding.md R54, the bus frames of R59, what can be presented to
the machine, and `Instr`, one constructor for each row of spec/opcode_table.json (11 CMD rows and 5 BUS rows). -/

namespace Sys2Proof

/-- An identifier image `[SIDH, SIDL, EID8, EID0]` (R17, glossary). -/
structure Image where
  sidh : Byte
  sidl : Byte
  eid8 : Byte
  eid0 : Byte
deriving DecidableEq, Repr

/-- The command record the host presents at once (R54). `ext` is `EXT`: `false` standard, `true` extended. -/
structure CmdRecord where
  cmd   : Byte
  addr  : Byte
  mask  : Byte
  val   : Byte
  wdata : Vector Byte Config.maxBurst
  id    : Word32
  ext   : Bool
  idb   : Image
deriving DecidableEq, Repr

/-- The record with every field zero. -/
def CmdRecord.zero : CmdRecord :=
  ⟨0, 0, 0, 0, Vector.replicate Config.maxBurst 0, 0, false, ⟨0, 0, 0, 0⟩⟩

/-- The five bus frames (R59, R60) by their meaning; their bytes are `encodeFrame`. -/
inductive BusFrame where
  | reset
  /-- READ of `n` registers from address `a` (R38). -/
  | read (a : Byte) (n : Nat)
  /-- WRITE of the bytes `vs` from address `a` (R39). -/
  | write (a : Byte) (vs : List Byte)
  /-- BIT MODIFY of address `a` under mask `m` with value `v` (R40). -/
  | bitmod (a m v : Byte)
  | rdstatus
deriving DecidableEq, Repr

/-- The two encoding levels of R53: a command record from the host, or a byte sequence `mosi` on the bus. -/
inductive Presented where
  | command (r : CmdRecord)
  | frame (mosi : List Byte)
deriving DecidableEq, Repr

/-- One constructor for each row of the opcode table. -/
inductive Instr where
  /-- `RESET` (R70). -/
  | reset
  /-- `READ a` (R71). -/
  | read (a : Byte)
  /-- `READN a, n` (R72). -/
  | readn (a : Byte) (n : Nat)
  /-- `WRITE a, v` (R73). -/
  | write (a v : Byte)
  /-- `WRITEN a, v0, ..., v(n-1)` (R74). -/
  | writen (a : Byte) (vs : List Byte)
  /-- `BITMOD a, m, v` (R75). -/
  | bitmod (a m v : Byte)
  /-- `RDSTATUS` (R76). -/
  | rdstatus
  /-- `PACK id, S|X` (R81). -/
  | pack (id : Word32) (x : Bool)
  /-- `UNPACK b0, b1, b2, b3` (R82). -/
  | unpack (p : Image)
  /-- `WRITEID a, id, S|X` (R83). -/
  | writeid (a : Byte) (id : Word32) (x : Bool)
  /-- `READID a` (R84). -/
  | readid (a : Byte)
  /-- The bus frame `[0xC0]` (row BUS_RESET, R42). -/
  | busReset
  /-- The bus frame `[0x03, a] ++ [DUMMY] * n` (row BUS_READ, R38). -/
  | busRead (a : Byte) (n : Nat)
  /-- The bus frame `[0x02, a] ++ vs` (row BUS_WRITE, R39). -/
  | busWrite (a : Byte) (vs : List Byte)
  /-- The bus frame `[0x05, a, m, v]` (row BUS_BITMOD, R40). -/
  | busBitmod (a m v : Byte)
  /-- The bus frame `[0xA0, DUMMY]` (row BUS_RDSTATUS, R41). -/
  | busRdstatus
deriving DecidableEq, Repr

/-- The instruction that a bus frame on its own is. -/
def Instr.ofFrame : BusFrame → Instr
  | .reset => .busReset
  | .read a n => .busRead a n
  | .write a vs => .busWrite a vs
  | .bitmod a m v => .busBitmod a m v
  | .rdstatus => .busRdstatus

end Sys2Proof
end

