-- ==== Sys2Proof/Machine/State.lean ====
section
/-! DEFINITION. The state of the machine: the block's registers (10_state.md R12), the transaction log (R26), the peer register
space and the kind of peer (20_memory.md R28, R52), and the model's own fields that stand for the inputs of a step (what the
host presents and reads, what the environment and the peer's hardware do, the count of oracle draws). All of it plain data. -/

namespace Sys2Proof
namespace Machine

/-- `PHASE` (R13). -/
inductive Phase where
  | idle
  | settle
deriving DecidableEq, Repr

/-- Which peer answers. `volatile` is the peer of the contract R38 to R44, whose hardware changes its registers at any
time, so that every byte it returns is a draw (R37). `reference` is the deterministic peer of R52 with its status byte
`PSTAT`: a claim may assume it only by naming it as a premise. -/
inductive PeerKind where
  | volatile
  | reference (pstat : Byte)
deriving DecidableEq, Repr

/-- An entry `(mosi, miso)` of `TXLOG` (R26). -/
structure Xfer where
  mosi : List Byte
  miso : List Byte
deriving DecidableEq, Repr

/-- `IDR[0 .. 3]` by the register names of R17; `none` is `NONE` (R22). -/
structure Idr where
  sidh : Option Byte
  sidl : Option Byte
  eid8 : Option Byte
  eid0 : Option Byte
deriving DecidableEq, Repr

/-- A register the host may read (R23). -/
inductive ResultReg where
  | rdata (i : Fin 16)
  | stat
  | idr (i : Fin 4)
  | idout
  | extout
  | err
deriving DecidableEq, Repr

/-- A value the host has read, padded with zeros to 32 bits. -/
structure HostReading where
  reg   : ResultReg
  value : Word32
deriving DecidableEq, Repr

/-- One thing that happens, by the agent that does it (00_scope.md R6). -/
inductive Event where
  /-- A command record (the host) or a bus frame is presented. -/
  | present (p : Presented)
  /-- The host reads a result register (R23). -/
  | hostRead (r : ResultReg)
  /-- The environment event settle-elapsed (R106). -/
  | settleElapsed
  /-- The peer's own hardware changes one of its registers (R48). -/
  | peerChange (a v : Byte)
deriving DecidableEq, Repr

/-- The peer register space: (address, byte) pairs with strictly rising addresses. An address that is not listed holds
no value the model knows (R27). -/
abbrev Memory := List Host.Cell

/-- The whole state. `none` in a result register is the spec's `NONE` (R22). -/
structure State where
  /-- `PHASE` (R13). -/
  phase   : Phase
  /-- `ERR`, 2 bits (R14, R90). -/
  err     : BitVec 2
  /-- `RDATA[0 .. MAX_BURST-1]` (R15). -/
  rdata   : Vector (Option Byte) Config.maxBurst
  /-- `STAT` (R16). -/
  stat    : Option Byte
  /-- `IDR[0 .. 3]` (R17), as it was written; `wiredIdr` is what it reads as (R18, R19, R23). -/
  idr     : Idr
  /-- `IDOUT` (R20). -/
  idout   : Option Word32
  /-- `EXTOUT` (R20): `true` is 1, extended. -/
  extout  : Option Bool
  /-- `TXLOG` (R26), oldest entry first. -/
  txlog   : List Xfer
  /-- `PREG`, the peer register space (R28): what was last put at each address. -/
  preg    : Memory
  /-- The kind of peer (R52); the model's own field. -/
  peer    : PeerKind
  /-- How many oracle draws were made (R9); the model's own field. -/
  draws   : Nat
  /-- What happens next, in order (R6, R47, R68): the inputs of the steps to come; the model's own field. -/
  agenda  : List Event
  /-- What the host has read, oldest first (R23); the model's own field. -/
  hostLog : List HostReading
deriving DecidableEq, Repr

/-- Why the machine stops with a fault. -/
inductive Fault where
  /-- The host read a result register that holds no value (R22, 93 U1). Raised by `hostRead`; safe. -/
  | readOfNone (r : ResultReg)
  /-- The host read `ERR` and it held the reserved code 3 (R90, 93 U4). Raised by `hostRead`; safe, and no run from reset
  gets there. -/
  | errReserved
deriving DecidableEq, Repr

/-- Why the machine refuses. -/
inductive Refusal where
  /-- An instruction of the opcode table that has no meaning in this model (no arm raises it now); safe. -/
  | notModelled (mnemonic : String)
  /-- A byte sequence that is none of the five frames of R59 was put on the bus from outside: the spec does not say what
  the peer does with it (R64, 91 N3). Raised by the step; safe. The block never sends one. -/
  | unknownFrame
deriving DecidableEq, Repr

/-- The state after power-on (R27, R104); the fields of the model's own are named in the assumption log. -/
def State.reset : State where
  phase := .idle
  err := 0
  rdata := Vector.replicate Config.maxBurst none
  stat := none
  idr := ⟨none, none, none, none⟩
  idout := none
  extout := none
  txlog := []
  preg := []
  peer := .volatile
  draws := 0
  agenda := []
  hostLog := []

end Machine
end Sys2Proof
end

