-- ==== Sys2Proof/Machine/Memory.lean ====
section
/-! DEFINITION. The operations over the peer register space `PREG` (20_memory.md R28): 256 byte-wide locations, held in one
canonical form, strictly rising addresses below 256. -/

namespace Sys2Proof
namespace Machine

/-- What an address that is not listed reads as: no value the model knows (R27: "unknown to the block"). -/
def Memory.unlisted : Option Byte := none

/-- The byte listed at an address. -/
def Memory.read (m : Memory) (a : Nat) : Option Byte :=
  match m with
  | [] => Memory.unlisted
  | (k, v) :: rest => if k = a then some v else Memory.read rest a

/-- The memory with one byte put at an address, in canonical form. -/
def Memory.write (m : Memory) (a : Nat) (v : Byte) : Memory :=
  match m with
  | [] => [(a, v)]
  | (k, w) :: rest =>
    if a < k then (a, v) :: (k, w) :: rest
    else if a = k then (a, v) :: rest
    else (k, w) :: Memory.write rest a v

/-- The memory in which each of the 256 locations holds what `f` gives its address. -/
def Memory.fill (f : Byte → Byte) : Memory :=
  (List.range 256).map (fun a => (a, f (BitVec.ofNat 8 a)))

/-- Addresses above `lo` (if there is one) strictly rise and are below 256. -/
def Memory.wfFrom (lo : Option Nat) : Memory → Bool
  | [] => true
  | (k, _) :: rest => (match lo with | none => true | some l => decide (l < k)) && decide (k < 256) && Memory.wfFrom (some k) rest

/-- The canonical form. No listed entry can equal what an unlisted address reads as, since that is no value. -/
def Memory.wf (m : Memory) : Bool := Memory.wfFrom none m

end Machine
end Sys2Proof
end

