-- ==== Sys2Proof/WellFormed.lean ====
section
/-! DEFINITION. Which terms of the syntax stand for something the encodings can express: burst lengths (30_encoding.md R57)
and the one-or-more data bytes of a bus read or write (R38, R39). Every other operand is bounded by its type. -/

namespace Sys2Proof

/-- A legal burst length of READN and WRITEN: 1 ≤ n ≤ `MAX_BURST` (R57). -/
abbrev burstLenOk (n : Nat) : Bool := decide (1 ≤ n ∧ n ≤ Config.maxBurst)

/-- A bus frame carries at least one data byte where it carries any (R38, R39: "with n ≥ 1"). -/
def BusFrame.wf : BusFrame → Bool
  | .reset => true
  | .read _ n => decide (1 ≤ n)
  | .write _ vs => decide (1 ≤ vs.length)
  | .bitmod _ _ _ => true
  | .rdstatus => true

/-- The instructions that an encoding can express. -/
def Instr.wf : Instr → Bool
  | .reset => true
  | .read _ => true
  | .readn _ n => burstLenOk n
  | .write _ _ => true
  | .writen _ vs => burstLenOk vs.length
  | .bitmod _ _ _ => true
  | .rdstatus => true
  | .pack _ _ => true
  | .unpack _ => true
  | .writeid _ _ _ => true
  | .readid _ => true
  | .busReset => true
  | .busRead _ n => decide (1 ≤ n)
  | .busWrite _ vs => decide (1 ≤ vs.length)
  | .busBitmod _ _ _ => true
  | .busRdstatus => true

end Sys2Proof
end

