-- ==== Sys2Proof/Decode.lean ====
section
/-! DEFINITION. The decoder of both encoding levels (30_encoding.md R53): a command record (R54 to R58, R62, R63, R65) or a bus
frame (R59 to R61). Decoding is total and rejects by name. After it the encoders, written from the same tables, and the
assembler's pseudo-instructions (R67). -/

namespace Sys2Proof

/-- Why a presented command or frame is no instruction. -/
inductive Reject where
  /-- `ILLEGAL_OP`: a reserved `OP` (R62). -/
  | illegalOp
  /-- `ILLEGAL_LEN`: a wrong `NM1` (R57, R63). -/
  | illegalLen
  /-- `mosi` is empty, or `mosi[0]` is none of the five opcodes (R60). -/
  | unknownOpcode
  /-- The length does not fit the opcode (R59). -/
  | badFrameLength
  /-- A byte driven in a reply slot is not `DUMMY` (R59). -/
  | badDummy
deriving DecidableEq, Repr

/-- `OP = CMD[3:0]` (R55). -/
def opField (cmd : Byte) : BitVec 4 := cmd.extractLsb' 0 4

/-- `NM1 = CMD[7:4]` (R55). -/
def nm1Field (cmd : Byte) : BitVec 4 := cmd.extractLsb' 4 4

/-- The command byte from its two fields (R55). -/
def cmdByte (nm1 op : BitVec 4) : Byte := nm1 ++ op

/-- `n = zext_5(NM1) + 1` (R57). -/
def burstLen (cmd : Byte) : Nat := (nm1Field cmd).toNat + 1

/-- `OP` is 0x0 or 0xC .. 0xF (R56, R62). -/
def reservedOp (op : BitVec 4) : Bool := decide (op.toNat = 0 ∨ 0xC ≤ op.toNat)

/-- `OP` is READN or WRITEN, the two commands that carry a burst length (R55). -/
def burstOp (op : BitVec 4) : Bool := decide (op.toNat = 3 ∨ op.toNat = 5)

/-- The length check of R57 and R63, for a given `MAX_BURST`. -/
def lenWrong (maxBurst : Nat) (cmd : Byte) : Bool :=
  if burstOp (opField cmd) then decide (maxBurst < burstLen cmd) else decide (nm1Field cmd ≠ 0)

/-- The command that `OP` selects (R56), with its operands taken unchanged from the record (R58). -/
def selectCommand (r : CmdRecord) : Except Reject Instr :=
  match (opField r.cmd).toNat with
  | 0x1 => .ok .reset
  | 0x2 => .ok (.read r.addr)
  | 0x3 => .ok (.readn r.addr (burstLen r.cmd))
  | 0x4 => .ok (.write r.addr r.val)
  | 0x5 => .ok (.writen r.addr (r.wdata.toList.take (burstLen r.cmd)))
  | 0x6 => .ok (.bitmod r.addr r.mask r.val)
  | 0x7 => .ok .rdstatus
  | 0x8 => .ok (.pack r.id r.ext)
  | 0x9 => .ok (.unpack r.idb)
  | 0xA => .ok (.writeid r.addr r.id r.ext)
  | 0xB => .ok (.readid r.addr)
  | _ => .error .illegalOp

/-- The checks of R65 in their order, for a given `MAX_BURST`, then the command. -/
def decodeCommandFor (maxBurst : Nat) (r : CmdRecord) : Except Reject Instr :=
  if reservedOp (opField r.cmd) then .error .illegalOp
  else if lenWrong maxBurst r.cmd then .error .illegalLen
  else selectCommand r

/-- The decoder of command records (R65) with this block's `MAX_BURST`. -/
def decodeCommand (r : CmdRecord) : Except Reject Instr := decodeCommandFor Config.maxBurst r

/-- The peer's reading of a frame after the opcode 0x03 (R38, R59). -/
def decodeReadFrame : List Byte → Except Reject BusFrame
  | a :: d :: ds =>
    if (d :: ds).all (fun b => decide (b = Config.dummy)) then .ok (.read a (ds.length + 1)) else .error .badDummy
  | _ => .error .badFrameLength

/-- The decoder of bus frames: the opcode byte, then the layout it tells (R59 to R61). -/
def decodeFrame (mosi : List Byte) : Except Reject BusFrame :=
  match mosi with
  | [] => .error .unknownOpcode
  | op :: rest =>
    if op = 0xC0#8 then
      match rest with
      | [] => .ok .reset
      | _ => .error .badFrameLength
    else if op = 0x03#8 then decodeReadFrame rest
    else if op = 0x02#8 then
      match rest with
      | a :: v :: vs => .ok (.write a (v :: vs))
      | _ => .error .badFrameLength
    else if op = 0x05#8 then
      match rest with
      | [a, m, v] => .ok (.bitmod a m v)
      | _ => .error .badFrameLength
    else if op = 0xA0#8 then
      match rest with
      | [d] => if d = Config.dummy then .ok .rdstatus else .error .badDummy
      | _ => .error .badFrameLength
    else .error .unknownOpcode

/-- The decoder of whatever is presented. -/
def decode : Presented → Except Reject Instr
  | .command r => decodeCommand r
  | .frame mosi => (decodeFrame mosi).map Instr.ofFrame

/-- The bytes of a bus frame (R59). -/
def encodeFrame : BusFrame → List Byte
  | .reset => [0xC0]
  | .read a n => [0x03, a] ++ List.replicate n Config.dummy
  | .write a vs => [0x02, a] ++ vs
  | .bitmod a m v => [0x05, a, m, v]
  | .rdstatus => [0xA0, Config.dummy]

/-- `WDATA` holding the bytes `vs` first and zeros after them. -/
def wdataOf (vs : List Byte) : Vector Byte Config.maxBurst :=
  ⟨⟨(vs ++ List.replicate Config.maxBurst 0).take Config.maxBurst⟩, by simp⟩

/-- The encoder (R54 to R58, R66; unused record fields are zero; R59 for the bus rows). -/
def encode : Instr → Presented
  | .reset => .command { CmdRecord.zero with cmd := cmdByte 0 1 }
  | .read a => .command { CmdRecord.zero with cmd := cmdByte 0 2, addr := a }
  | .readn a n => .command { CmdRecord.zero with cmd := cmdByte (BitVec.ofNat 4 (n - 1)) 3, addr := a }
  | .write a v => .command { CmdRecord.zero with cmd := cmdByte 0 4, addr := a, val := v }
  | .writen a vs =>
    .command { CmdRecord.zero with cmd := cmdByte (BitVec.ofNat 4 (vs.length - 1)) 5, addr := a, wdata := wdataOf vs }
  | .bitmod a m v => .command { CmdRecord.zero with cmd := cmdByte 0 6, addr := a, mask := m, val := v }
  | .rdstatus => .command { CmdRecord.zero with cmd := cmdByte 0 7 }
  | .pack id x => .command { CmdRecord.zero with cmd := cmdByte 0 8, id := id, ext := x }
  | .unpack p => .command { CmdRecord.zero with cmd := cmdByte 0 9, idb := p }
  | .writeid a id x => .command { CmdRecord.zero with cmd := cmdByte 0 10, addr := a, id := id, ext := x }
  | .readid a => .command { CmdRecord.zero with cmd := cmdByte 0 11, addr := a }
  | .busReset => .frame (encodeFrame .reset)
  | .busRead a n => .frame (encodeFrame (.read a n))
  | .busWrite a vs => .frame (encodeFrame (.write a vs))
  | .busBitmod a m v => .frame (encodeFrame (.bitmod a m v))
  | .busRdstatus => .frame (encodeFrame .rdstatus)

/-- `SETBITS a, m` (R67). -/
def setBits (a m : Byte) : Instr := .bitmod a m m

/-- `CLEARBITS a, m` (R67). -/
def clearBits (a m : Byte) : Instr := .bitmod a m 0x00

/-- `ZERO a, n` (R67). -/
def zeroRegs (a : Byte) (n : Nat) : Instr := .writen a (List.replicate n 0x00)

/-- The frame that a bare opcode byte begins, its other bytes zero, at the shortest length the opcode has (R59, R112). -/
def frameOfOpcode (op : Byte) : List Byte :=
  if op = 0xA0#8 then [op, 0]
  else if op = 0x03#8 ∨ op = 0x02#8 then [op, 0, 0]
  else if op = 0x05#8 then [op, 0, 0, 0]
  else [op]

/-- What a table word stands for when it is presented. The table gives every row one byte, and three bus opcode bytes are
also command bytes (0x02, 0x03, 0x05), so the byte alone does not name its level: it is a command byte where that is legal,
and else a bus opcode (log entry 12). -/
def presentTableWord (w : Nat) : Presented :=
  match decode (.command { CmdRecord.zero with cmd := BitVec.ofNat 8 w }) with
  | .ok _ => .command { CmdRecord.zero with cmd := BitVec.ofNat 8 w }
  | .error _ =>
    match decode (.frame (frameOfOpcode (BitVec.ofNat 8 w))) with
    | .ok _ => .frame (frameOfOpcode (BitVec.ofNat 8 w))
    | .error _ => .command { CmdRecord.zero with cmd := BitVec.ofNat 8 w }

/-- The instruction of a table word (every row of the table has 8 bits; the operands not in the word are zero). -/
def decodeTableWord (_nbits w : Nat) : Option Instr :=
  match decode (presentTableWord w) with
  | .ok i => some i
  | .error _ => none

end Sys2Proof
end

