-- ==== Sys2Proof/Machine/Flags.lean ====
section
/-! DEFINITION. The flag-like bits of 10_state.md R24 and the error codes of 60_exceptions.md R90. The block has no condition
codes and no command writes any of these as a side effect. -/

namespace Sys2Proof
namespace Machine

/-- `ERR = 0`: the command completed (R90). -/
def errNone : BitVec 2 := 0

/-- `ERR = 1`: ILLEGAL_OP (R90). -/
def errIllegalOp : BitVec 2 := 1

/-- `ERR = 2`: ILLEGAL_LEN (R90). -/
def errIllegalLen : BitVec 2 := 2

/-- The code 3, never written (R90). -/
def errReservedCode : BitVec 2 := 3

/-- The extended-ID-enable bit of a SIDL byte (R24, D17). -/
def exide (sidl : Byte) : Bool := sidl.getLsbD Config.exidePos

/-- EXIDE of the image register, `IDR[1][3]` (R24). -/
def State.exide (s : State) : Option Bool := s.idr.sidl.map Machine.exide

/-- Status bit 0: receive buffer 0 holds an unread message (R24, R41). -/
def rx0Pending (stat : Byte) : Bool := stat.getLsbD 0

/-- Status bit 1: receive buffer 1 holds an unread message (R24, R41). -/
def rx1Pending (stat : Byte) : Bool := stat.getLsbD 1

/-- The host's `NoMessage` signal: `STAT` bits 0 and 1 both clear (R97). It is none of the block's errors. -/
def State.noMessage (s : State) : Option Bool := s.stat.map (fun b => !rx0Pending b && !rx1Pending b)

end Machine
end Sys2Proof
end

