-- ==== Sys2Proof/Machine/Operands.lean ====
section
/-! DEFINITION. The operand and reply forms: the identifier image and the pure functions `pack` and `unpack` (41_id_codec.md
R77 to R80), the reply slots of a transaction (30_encoding.md R59), and the register files written element by element. -/

namespace Sys2Proof
namespace Machine

/-- `pack_std` (R77): `SIDH = id[10:3]`, `SIDL = id[2:0] << 5`, the extended bytes zero. -/
def packStd (id : BitVec 11) : Image where
  sidh := id.extractLsb' 3 8
  sidl := (id.extractLsb' 0 3).setWidth 8 <<< 5
  eid8 := 0x00
  eid0 := 0x00

/-- `pack_ext` (R78): the low 16 bits in EID8 and EID0, `id[17:16]` in SIDL[1:0], `id[20:18]` in SIDL[7:5], EXIDE set,
`id[28:21]` in SIDH. -/
def packExt (id : BitVec 29) : Image where
  sidh := id.extractLsb' 21 8
  sidl := ((id.extractLsb' 18 3).setWidth 8 <<< 5) ||| ((1#8) <<< Config.exidePos) ||| (id.extractLsb' 16 2).setWidth 8
  eid8 := id.extractLsb' 8 8
  eid0 := id.extractLsb' 0 8

/-- `pack` (R79): the form by the extended flag; the identifier bits above the form's width are ignored. -/
def pack (id : Word32) (x : Bool) : Image :=
  if x then packExt (id.extractLsb' 0 29) else packStd (id.extractLsb' 0 11)

/-- The base 11 bits of an image (R80): `(SIDH << 3) | SIDL[7:5]`. -/
def baseId (p : Image) : BitVec 11 := (p.sidh.setWidth 11 <<< 3) ||| (p.sidl.extractLsb' 5 3).setWidth 11

/-- `unpack` (R80): the identifier and the extended flag, for every image. -/
def unpack (p : Image) : Word32 × Bool :=
  if exide p.sidl then
    (((baseId p).setWidth 32 <<< 18) ||| ((p.sidl.extractLsb' 0 2).setWidth 32 <<< 16)
      ||| (p.eid8.setWidth 32 <<< 8) ||| p.eid0.setWidth 32, true)
  else ((baseId p).setWidth 32, false)

/-- The image bytes in the address order base+0 .. base+3 (`ID_LAYOUT`, R31, D16). -/
def imageBytes (p : Image) : List Byte := [p.sidh, p.sidl, p.eid8, p.eid0]

/-- `miso[k]`. The commands only ask for slots the transaction has; 0 stands for any other. -/
def slot (miso : List Byte) (k : Nat) : Byte := miso.getD k 0

/-- `miso[lo .. lo+n-1]`. -/
def slots (miso : List Byte) (lo n : Nat) : List Byte := (miso.drop lo).take n

/-- The image in the reply slots 2 .. 5 (R84). -/
def replyImage (miso : List Byte) : Image := ⟨slot miso 2, slot miso 3, slot miso 4, slot miso 5⟩

/-- The image register holding an image, all four bytes whole (R17). -/
def idrOf (p : Image) : Idr := ⟨some p.sidh, some p.sidl, some p.eid8, some p.eid0⟩

/-- `IDR` as it reads: the bits that R23 calls hardwired are zero, whatever was written to them. These are the zero bits of the tables
of R18 (EXIDE clear: SIDL[4], SIDL[2:0], EID8, EID0) and R19 (EXIDE set: SIDL[4], SIDL[2]). An element without a value has none
here either. DEDUCED (log entry 23). -/
def wiredIdr (r : Idr) : Idr :=
  match r.sidl with
  | none => r
  | some b =>
    if exide b then { r with sidl := some (b &&& 0xEB) }
    else { r with sidl := some (b &&& 0xE0), eid8 := r.eid8.map (fun _ => 0x00), eid0 := r.eid0.map (fun _ => 0x00) }

/-- `IDR[i]` (R17). -/
def idrAt (r : Idr) (i : Fin 4) : Option Byte :=
  match i.val with
  | 0 => r.sidh
  | 1 => r.sidl
  | 2 => r.eid8
  | _ => r.eid0

/-- `RDATA[k], RDATA[k+1], ... <- bs`; the elements after them keep their values (R15, D35). -/
def storeRdata (r : Vector (Option Byte) Config.maxBurst) (k : Nat) : List Byte → Vector (Option Byte) Config.maxBurst
  | [] => r
  | b :: bs => storeRdata (r.setIfInBounds k (some b)) (k + 1) bs

/-- Bit-modify (R40): bits where the mask is 1 take the value's bits, the others stay. -/
def mergeMasked (old m v : Byte) : Byte := (old &&& ~~~m) ||| (v &&& m)

/-- A 32-bit view of a flag. -/
def flagWord (x : Bool) : Word32 := if x then 1 else 0

end Machine
end Sys2Proof
end

