-- ==== Sys2Proof/Machine/Ops.lean ====
section
/-! DEFINITION. The shared operations: the register updates, the peer's answer to a frame and the one transaction primitive
`SpiXfer` (00_scope.md R9, 20_memory.md R38 to R44, R52), the acceptance of a command (40_framer.md R69), the one error the
block raises (60_exceptions.md R90, R94: there is no trap entry and no return), the settle-elapsed event and the host's reads. -/

namespace Sys2Proof
namespace Machine

/-! ### Register updates -/

def State.withPhase (s : State) (p : Phase) : State := { s with phase := p }
def State.withErr (s : State) (e : BitVec 2) : State := { s with err := e }
def State.withRdata (s : State) (r : Vector (Option Byte) Config.maxBurst) : State := { s with rdata := r }
def State.withStat (s : State) (b : Byte) : State := { s with stat := some b }
/-- `IDR[0..3] <- P`, the four bytes whole (R17, R81 to R84). What `IDR` then reads as is `wiredIdr`. -/
def State.withIdr (s : State) (p : Image) : State := { s with idr := idrOf p }
def State.withIdOut (s : State) (r : Word32 × Bool) : State := { s with idout := some r.1, extout := some r.2 }
def State.withTxlog (s : State) (l : List Xfer) : State := { s with txlog := l }
def State.withPreg (s : State) (m : Memory) : State := { s with preg := m }
def State.withDraws (s : State) (n : Nat) : State := { s with draws := n }
def State.withAgenda (s : State) (l : List Event) : State := { s with agenda := l }
def State.withHostLog (s : State) (l : List HostReading) : State := { s with hostLog := l }

/-- An image from outside is taken up (R82, R84): `IDR[0..3] <- P` and `(IDOUT, EXTOUT) <- unpack(P)`. -/
def State.withUnpacked (s : State) (p : Image) : State := (s.withIdr p).withIdOut (unpack p)

/-! ### The peer -/

/-- The byte clocked back in a slot that the contract leaves unspecified (R43): a draw, or 0xFF from the reference
peer (R52). -/
def noise (s : State) (k : Nat) : Byte :=
  match s.peer with
  | .volatile => Config.oracle (s.draws + k)
  | .reference _ => 0xFF

/-- `n` unspecified bytes from slot `k` on. -/
def noiseFrom (s : State) (k : Nat) : Nat → List Byte
  | 0 => []
  | n + 1 => noise s k :: noiseFrom s (k + 1) n

/-- The successor of 0xFF (R44, R52). -/
def topNext : PeerKind → Byte
  | .volatile => Config.peerAddrNext
  | .reference _ => 0x00

/-- The auto-increment successor of an address (R44). -/
def addrNext (p : PeerKind) (x : Byte) : Byte := if x = 0xFF#8 then topNext p else x + 1

/-- `addr_k`: the k-th address of a burst from `a` (R38). -/
def burstAddr (p : PeerKind) (a : Byte) : Nat → Byte
  | 0 => a
  | k + 1 => addrNext p (burstAddr p a k)

/-- What the reference peer's register holds at an address. -/
def pregByte (m : Memory) (a : Byte) : Byte := (m.read a.toNat).getD (Config.peerPowerOn a)

/-- The byte the peer returns for its register `a` in slot `k` (R37, R38): a draw, or the register of the reference
peer (R52). -/
def memRead (s : State) (k : Nat) (a : Byte) : Byte :=
  match s.peer with
  | .volatile => Config.oracle (s.draws + k)
  | .reference _ => pregByte s.preg a

/-- The `n` reply bytes of a burst read from address `a`, the first in slot `k` (R38). -/
def readBurst (s : State) (k : Nat) (a : Byte) : Nat → List Byte
  | 0 => []
  | n + 1 => memRead s k a :: readBurst s (k + 1) (addrNext s.peer a) n

/-- The peer register space after a burst write from address `a`, in order (R39). -/
def writeBurst (p : PeerKind) (m : Memory) (a : Byte) : List Byte → Memory
  | [] => m
  | v :: vs => writeBurst p (m.write a.toNat v) (addrNext p a) vs

/-- The status byte (R41): bits 1:0 say which receive buffers hold an unread message, bits 7:2 are `PEER_STATUS` draws.
The reference peer returns its `PSTAT` (R52). -/
def statusByte (s : State) : Byte :=
  match s.peer with
  | .volatile => Config.peerStatus (s.draws + 1) ++ Config.rxUnread (s.draws + 1)
  | .reference pstat => pstat

/-- The byte a bit-modify leaves at its address (R40): the merge where bit-modify is masked, any value elsewhere. The old
byte of a volatile peer is a draw, since its hardware may have changed it (R37, R48). -/
def bitmodByte (s : State) (a m v : Byte) : Byte :=
  match s.peer with
  | .volatile =>
    if Config.peerBitmodOk a then mergeMasked (Config.oracle (s.draws + 4)) m v else Config.oracle (s.draws + 5)
  | .reference _ => mergeMasked (pregByte s.preg a) m v

/-- `PEER_RESET_IMAGE` (R42); all zero for the reference peer (R52). -/
def resetImage : PeerKind → Byte → Byte
  | .volatile, a => Config.peerResetImage a
  | .reference _, _ => 0x00

/-- `miso` of a frame (R38 to R43). -/
def peerReply (s : State) : BusFrame → List Byte
  | .reset => noiseFrom s 0 1
  | .read a n => noiseFrom s 0 2 ++ readBurst s 2 a n
  | .write _ vs => noiseFrom s 0 (vs.length + 2)
  | .bitmod _ _ _ => noiseFrom s 0 4
  | .rdstatus => [noise s 0, statusByte s]

/-- The peer register space after a frame (R38 to R42). -/
def peerEffect (s : State) : BusFrame → Memory
  | .reset => Memory.fill (resetImage s.peer)
  | .read _ _ => s.preg
  | .write a vs => writeBurst s.peer s.preg a vs
  | .bitmod a m v => s.preg.write a.toNat (bitmodByte s a m v)
  | .rdstatus => s.preg

/-- How many draws a frame uses: one for each slot, and two more for a bit-modify's old and left byte. -/
def drawCount (f : BusFrame) : Nat := (encodeFrame f).length + 2

/-- `miso <- SpiXfer(mosi)` (R9): one transaction, logged in `TXLOG` (R26). It always returns (R113, D30). -/
def spiXfer (f : BusFrame) (s : State) : List Byte × State :=
  (peerReply s f,
    (((s.withPreg (peerEffect s f)).withDraws (s.draws + drawCount f)).withTxlog
      (s.txlog ++ [⟨encodeFrame f, peerReply s f⟩])))

/-! ### Acceptance, errors, events -/

/-- What a command or frame does when nothing holds it; while `PHASE = SETTLE` it is held, and nothing changes (R13, R106). -/
def held (body : State → State) (s : State) : Host.Outcome State Fault Refusal :=
  match s.phase with
  | .settle => .next s
  | .idle => .next (body s)

/-- The common step of an accepted command (R69): the body, then `ERR <- 0`. -/
def accept (body : State → State) (s : State) : Host.Outcome State Fault Refusal :=
  held (fun s => (body s).withErr errNone) s

/-- `raise IllegalCommand(code)` (R10, R90): `ERR` is written and nothing else changes. Nothing is saved, no mode changes
and there is no return from it (R94, R95). -/
def raiseIllegal (code : BitVec 2) (s : State) : State := s.withErr code

/-- What the machine does with a presented command or frame that is no instruction (R62, R63, R65; a frame outside R59 has no
effect the spec gives, R64). -/
def rejected (r : Reject) (s : State) : Host.Outcome State Fault Refusal :=
  match r with
  | .illegalOp => .next (raiseIllegal errIllegalOp s)
  | .illegalLen => .next (raiseIllegal errIllegalLen s)
  | .unknownOpcode => .refused .unknownFrame
  | .badFrameLength => .refused .unknownFrame
  | .badDummy => .refused .unknownFrame

/-- The `[0xC0]` frame and the start of the settle interval (R70, R99, R106). -/
def sendReset (s : State) : State := (spiXfer .reset s).2.withPhase .settle

/-- The settle-elapsed event (R106): enabled only while `PHASE = SETTLE`, sets `PHASE <- IDLE`. -/
def settleElapsed (s : State) : State :=
  match s.phase with
  | .settle => s.withPhase .idle
  | .idle => s

/-- The peer's hardware changes a register (R48). The reference peer has no such change (R52). -/
def peerChange (a v : Byte) (s : State) : State :=
  match s.peer with
  | .volatile => s.withPreg (s.preg.write a.toNat v)
  | .reference _ => s

/-- The value a host read of a result register gives, if it holds one (R22, R23). -/
def resultReg (s : State) : ResultReg → Option Word32
  | .rdata i => (s.rdata.toList.getD i.val none).map (·.setWidth 32)
  | .stat => s.stat.map (·.setWidth 32)
  | .idr i => (idrAt (wiredIdr s.idr) i).map (·.setWidth 32)
  | .idout => s.idout
  | .extout => s.extout.map flagWord
  | .err => if s.err = errReservedCode then none else some (s.err.setWidth 32)

/-- A host read (R23): the host sees the value and nothing else changes; a register that holds none faults (R22, U1), and so
does the code 3 in `ERR` (U4). -/
def hostRead (r : ResultReg) (s : State) : Host.Outcome State Fault Refusal :=
  match resultReg s r with
  | some v => .next (s.withHostLog (s.hostLog ++ [⟨r, v⟩]))
  | none => if r = .err then .fault .errReserved else .fault (.readOfNone r)

end Machine
end Sys2Proof
end

