-- ==== Sys2Proof/Machine/Bus.lean ====
section
/-! DEFINITION. The five bus rows of the opcode table (20_memory.md R38 to R42): one frame put on the bus on its own is one
`SpiXfer` of exactly that frame. No result register keeps its reply and `ERR` is not written, since it is no command (R14); it
is held like a command while `PHASE = SETTLE` (R106). -/

namespace Sys2Proof
namespace Machine

/-- `[0xC0]` (R42, R70): the peer is reset and the settle interval starts. -/
def execBusReset (s : State) : Host.Outcome State Fault Refusal := held sendReset s

/-- `[0x03, a] ++ [DUMMY] * n` (R38). -/
def execBusRead (a : Byte) (n : Nat) (s : State) : Host.Outcome State Fault Refusal :=
  held (fun s => (spiXfer (.read a n) s).2) s

/-- `[0x02, a] ++ vs` (R39). -/
def execBusWrite (a : Byte) (vs : List Byte) (s : State) : Host.Outcome State Fault Refusal :=
  held (fun s => (spiXfer (.write a vs) s).2) s

/-- `[0x05, a, m, v]` (R40). -/
def execBusBitmod (a m v : Byte) (s : State) : Host.Outcome State Fault Refusal :=
  held (fun s => (spiXfer (.bitmod a m v) s).2) s

/-- `[0xA0, DUMMY]` (R41). -/
def execBusRdstatus (s : State) : Host.Outcome State Fault Refusal :=
  held (fun s => (spiXfer .rdstatus s).2) s

end Machine
end Sys2Proof
end

