-- ==== Sys2Proof/Machine/Codec.lean ====
section
/-! DEFINITION. The identifier codec's commands (41_id_codec.md R81 to R84). -/

namespace Sys2Proof
namespace Machine

/-- `PACK id, S|X` (R81): `IDR <- pack(id, x)`, no frame. -/
def execPack (id : Word32) (x : Bool) (s : State) : Host.Outcome State Fault Refusal :=
  accept (fun s => s.withIdr (pack id x)) s

/-- `UNPACK b0, b1, b2, b3` (R82): `IDR <- IDB`, `(IDOUT, EXTOUT) <- unpack(IDB)`, no frame. -/
def execUnpack (p : Image) (s : State) : Host.Outcome State Fault Refusal :=
  accept (fun s => s.withUnpacked p) s

/-- `WRITEID a, id, S|X` (R83): `IDR <- P`, and one WRITE frame of the four bytes of `P = pack(id, x)`. -/
def execWriteid (a : Byte) (id : Word32) (x : Bool) (s : State) : Host.Outcome State Fault Refusal :=
  accept (fun s => (spiXfer (.write a (imageBytes (pack id x))) (s.withIdr (pack id x))).2) s

/-- The body of READID (R84): one READ frame of four bytes, then `IDR` and `(IDOUT, EXTOUT)` from the reply. -/
def readidBody (a : Byte) (s : State) : State :=
  let r := spiXfer (.read a 4) s
  r.2.withUnpacked (replyImage r.1)

/-- `READID a` (R84). -/
def execReadid (a : Byte) (s : State) : Host.Outcome State Fault Refusal := accept (readidBody a) s

end Machine
end Sys2Proof
end

