-- ==== Sys2Proof/Machine/Framer.lean ====
section
/-! DEFINITION. The register access framer's commands (40_framer.md R70 to R76). -/

namespace Sys2Proof
namespace Machine

/-- `RESET` (R70). -/
def execReset (s : State) : Host.Outcome State Fault Refusal := accept sendReset s

/-- The body of READ (R71): `RDATA[0] <- miso[2]`. -/
def readBody (a : Byte) (s : State) : State :=
  let r := spiXfer (.read a 1) s
  r.2.withRdata (storeRdata s.rdata 0 [slot r.1 2])

/-- `READ a` (R71). -/
def execRead (a : Byte) (s : State) : Host.Outcome State Fault Refusal := accept (readBody a) s

/-- The body of READN (R72): `RDATA[k] <- miso[2 + k]` for k below n. -/
def readnBody (a : Byte) (n : Nat) (s : State) : State :=
  let r := spiXfer (.read a n) s
  r.2.withRdata (storeRdata s.rdata 0 (slots r.1 2 n))

/-- `READN a, n` (R72). -/
def execReadn (a : Byte) (n : Nat) (s : State) : Host.Outcome State Fault Refusal := accept (readnBody a n) s

/-- `WRITE a, v` (R73). -/
def execWrite (a v : Byte) (s : State) : Host.Outcome State Fault Refusal :=
  accept (fun s => (spiXfer (.write a [v]) s).2) s

/-- `WRITEN a, v0, ..., v(n-1)` (R74). -/
def execWriten (a : Byte) (vs : List Byte) (s : State) : Host.Outcome State Fault Refusal :=
  accept (fun s => (spiXfer (.write a vs) s).2) s

/-- `BITMOD a, m, v` (R75). -/
def execBitmod (a m v : Byte) (s : State) : Host.Outcome State Fault Refusal :=
  accept (fun s => (spiXfer (.bitmod a m v) s).2) s

/-- The body of RDSTATUS (R76): `STAT <- miso[1]`. -/
def rdstatusBody (s : State) : State :=
  let r := spiXfer .rdstatus s
  r.2.withStat (slot r.1 1)

/-- `RDSTATUS` (R76). -/
def execRdstatus (s : State) : Host.Outcome State Fault Refusal := accept rdstatusBody s

end Machine
end Sys2Proof
end

