-- ==== Sys2Proof/Machine/Dispatch.lean ====
section
/-! DEFINITION. One arm for each instruction of the opcode table. -/

namespace Sys2Proof
namespace Machine

def exec (i : Instr) (s : State) : Host.Outcome State Fault Refusal :=
  match i with
  -- 40_framer.md
  | .reset => Sys2Proof.Machine.execReset s
  | .read a => Sys2Proof.Machine.execRead a s
  | .readn a n => Sys2Proof.Machine.execReadn a n s
  | .write a v => Sys2Proof.Machine.execWrite a v s
  | .writen a vs => Sys2Proof.Machine.execWriten a vs s
  | .bitmod a m v => Sys2Proof.Machine.execBitmod a m v s
  | .rdstatus => Sys2Proof.Machine.execRdstatus s
  -- 41_id_codec.md
  | .pack id x => Sys2Proof.Machine.execPack id x s
  | .unpack p => Sys2Proof.Machine.execUnpack p s
  | .writeid a id x => Sys2Proof.Machine.execWriteid a id x s
  | .readid a => Sys2Proof.Machine.execReadid a s
  -- the bus rows
  | .busReset => Sys2Proof.Machine.execBusReset s
  | .busRead a n => Sys2Proof.Machine.execBusRead a n s
  | .busWrite a vs => Sys2Proof.Machine.execBusWrite a vs s
  | .busBitmod a m v => Sys2Proof.Machine.execBusBitmod a m v s
  | .busRdstatus => Sys2Proof.Machine.execBusRdstatus s

end Machine
end Sys2Proof
end

