-- ==== Sys2Proof/Machine/Step.lean ====
section
/-! DEFINITION. One step of the machine: the next thing on the agenda, by the agent that does it (00_scope.md R6). A presented
command or frame goes through the common step (40_framer.md R69): hold, decode, then its meaning or the error. -/

namespace Sys2Proof
namespace Machine

/-- A presented command or frame, already taken off the agenda, while `PHASE = IDLE` (R65, R69). -/
def runPresented (p : Presented) (s : State) : Host.Outcome State Fault Refusal :=
  match decode p with
  | .ok i => exec i s
  | .error r => rejected r s

/-- One step. Where something presented is held, or nothing is left to do, while `PHASE = SETTLE`, the only step enabled is
settle-elapsed, and the held command stays presented (R10, R13, R106, D31). Where nothing is left to do and
`PHASE = IDLE`, the run has ended (R114) and the machine stays as it is. -/
def step (s : State) : Host.Outcome State Fault Refusal :=
  match s.agenda with
  | [] => .next (settleElapsed s)
  | .present p :: rest =>
    match s.phase with
    | .settle => .next (settleElapsed s)
    | .idle => runPresented p (s.withAgenda rest)
  | .hostRead r :: rest => hostRead r (s.withAgenda rest)
  | .settleElapsed :: rest => .next (settleElapsed (s.withAgenda rest))
  | .peerChange a v :: rest => .next (peerChange a v (s.withAgenda rest))

/-- The state in which the instruction of a table word is the next thing presented. Presenting needs `PHASE = IDLE` (R23,
R54), so the settle interval, if one runs, has elapsed. -/
def State.withFetchWord (s : State) (_nbits w : Nat) : State :=
  (s.withPhase .idle).withAgenda (.present (presentTableWord w) :: s.agenda)

end Machine
end Sys2Proof
end

