-- ==== Sys2Proof/Machine/Assembler.lean ====
section
/-! DEFINITION. The command assembly syntax and the pseudo-instructions (30_encoding.md R66, R67), over a line as a list of
characters, and a program as a sequence of commands (R68). An assembler refuses a line whose values do not fit their fields. -/

namespace Sys2Proof
namespace Machine

/-- A space or a tab. -/
def isBlank (c : Char) : Bool := decide (c = ' ') || decide (c = '\t')

/-- The line up to `;`, which starts a comment. -/
def stripComment : List Char → List Char
  | [] => []
  | c :: cs => if c = ';' then [] else c :: stripComment cs

/-- The text without blanks at its ends. -/
def trimBlanks (t : List Char) : List Char := ((t.dropWhile isBlank).reverse.dropWhile isBlank).reverse

/-- The parts between commas. -/
def splitCommas : List Char → List (List Char)
  | [] => [[]]
  | c :: cs =>
    match splitCommas cs with
    | [] => [[c]]
    | p :: ps => if c = ',' then [] :: p :: ps else (c :: p) :: ps

/-- The operands of a line: the parts between commas, or none at all where nothing stands there. -/
def operandTexts (t : List Char) : List (List Char) :=
  match trimBlanks t with
  | [] => []
  | u => (splitCommas u).map trimBlanks

/-- The value of a digit, up to 15. -/
def digitValue (c : Char) : Option Nat :=
  if 48 ≤ c.toNat ∧ c.toNat ≤ 57 then some (c.toNat - 48)
  else if 65 ≤ c.toNat ∧ c.toNat ≤ 70 then some (c.toNat - 55)
  else if 97 ≤ c.toNat ∧ c.toNat ≤ 102 then some (c.toNat - 87)
  else none

/-- Digits in a base, after a value read so far. -/
def readDigits (base acc : Nat) : List Char → Option Nat
  | [] => some acc
  | c :: cs =>
    match digitValue c with
    | some d => if d < base then readDigits base (acc * base + d) cs else none
    | none => none

/-- A number: hexadecimal `0x..` or decimal (R66). -/
def readNumber : List Char → Option Nat
  | [] => none
  | '0' :: 'x' :: [] => none
  | '0' :: 'x' :: c :: cs => readDigits 16 0 (c :: cs)
  | cs => readDigits 10 0 cs

/-- An address or byte: at most 0xFF. -/
def byteOperand (t : List Char) : Option Byte :=
  (readNumber t).bind (fun n => if n ≤ 0xFF then some (BitVec.ofNat 8 n) else none)

/-- A burst length: 1 .. `MAX_BURST`. -/
def countOperand (t : List Char) : Option Nat :=
  (readNumber t).bind (fun n => if burstLenOk n then some n else none)

/-- An identifier: at most 0xFFFFFFFF. -/
def idOperand (t : List Char) : Option Word32 :=
  (readNumber t).bind (fun n => if n ≤ 0xFFFFFFFF then some (BitVec.ofNat 32 n) else none)

/-- `S` or `X`: `EXT` 0 or 1. -/
def extOperand (t : List Char) : Option Bool :=
  if t = ['S'] then some false else if t = ['X'] then some true else none

/-- Every text of a list, each an address or byte. -/
def byteOperands : List (List Char) → Option (List Byte)
  | [] => some []
  | t :: ts => (byteOperand t).bind (fun b => (byteOperands ts).map (b :: ·))

/-- The command of a mnemonic and its operand texts (R66, R67). -/
def assembleCommand (mnemonic : List Char) (ops : List (List Char)) : Option Instr :=
  if mnemonic = "RESET".toList then
    match ops with
    | [] => some .reset
    | _ => none
  else if mnemonic = "READ".toList then
    match ops with
    | [a] => (byteOperand a).map .read
    | _ => none
  else if mnemonic = "READN".toList then
    match ops with
    | [a, n] => (byteOperand a).bind (fun a => (countOperand n).map (.readn a))
    | _ => none
  else if mnemonic = "WRITE".toList then
    match ops with
    | [a, v] => (byteOperand a).bind (fun a => (byteOperand v).map (.write a))
    | _ => none
  else if mnemonic = "WRITEN".toList then
    match ops with
    | a :: vs =>
      (byteOperand a).bind (fun a => (byteOperands vs).bind (fun vs => if burstLenOk vs.length then some (.writen a vs) else none))
    | _ => none
  else if mnemonic = "BITMOD".toList then
    match ops with
    | [a, m, v] => (byteOperand a).bind (fun a => (byteOperand m).bind (fun m => (byteOperand v).map (.bitmod a m)))
    | _ => none
  else if mnemonic = "RDSTATUS".toList then
    match ops with
    | [] => some .rdstatus
    | _ => none
  else if mnemonic = "PACK".toList then
    match ops with
    | [i, x] => (idOperand i).bind (fun i => (extOperand x).map (.pack i))
    | _ => none
  else if mnemonic = "UNPACK".toList then
    match ops with
    | [b0, b1, b2, b3] =>
      (byteOperand b0).bind (fun b0 => (byteOperand b1).bind (fun b1 => (byteOperand b2).bind (fun b2 =>
        (byteOperand b3).map (fun b3 => .unpack ⟨b0, b1, b2, b3⟩))))
    | _ => none
  else if mnemonic = "WRITEID".toList then
    match ops with
    | [a, i, x] => (byteOperand a).bind (fun a => (idOperand i).bind (fun i => (extOperand x).map (.writeid a i)))
    | _ => none
  else if mnemonic = "READID".toList then
    match ops with
    | [a] => (byteOperand a).map .readid
    | _ => none
  else if mnemonic = "SETBITS".toList then
    match ops with
    | [a, m] => (byteOperand a).bind (fun a => (byteOperand m).map (setBits a))
    | _ => none
  else if mnemonic = "CLEARBITS".toList then
    match ops with
    | [a, m] => (byteOperand a).bind (fun a => (byteOperand m).map (clearBits a))
    | _ => none
  else if mnemonic = "ZERO".toList then
    match ops with
    | [a, n] => (byteOperand a).bind (fun a => (countOperand n).map (zeroRegs a))
    | _ => none
  else none

/-- A line of a program: refused (`none`), blank (`some none`), or one command. -/
def assembleLine (line : List Char) : Option (Option Instr) :=
  match trimBlanks (stripComment line) with
  | [] => some none
  | t =>
    (assembleCommand (t.takeWhile (fun c => !isBlank c)) (operandTexts (t.dropWhile (fun c => !isBlank c)))).map some

/-- A program text, one command a line (R66). DESIGN CHOICE (log entry 24): R66 says that a line is refused and not what becomes of
the rest of the text; here a text with a refused line is no program at all. -/
def assemble : List (List Char) → Option (List Instr)
  | [] => some []
  | l :: ls =>
    match assembleLine l, assemble ls with
    | some none, some is => some is
    | some (some i), some is => some (i :: is)
    | _, _ => none

/-- A program as what the host presents, in order (R68). -/
def programAgenda (is : List Instr) : List Event := is.map (fun i => .present (encode i))

/-- The machine about to run a program: the host will present its commands in order after what is already to happen. -/
def State.withProgram (s : State) (is : List Instr) : State := s.withAgenda (s.agenda ++ programAgenda is)

end Machine
end Sys2Proof
end

