-- ==== Sys2Proof/Safety.lean ====
section
/-! DEFINITION. What a good state and a good run are: the invariant of the machine, and the premises that 60_exceptions.md R91
and 70_reset_and_hazards.md R105, R114 name for claims about programs. -/

namespace Sys2Proof
namespace Machine

/-- The reference peer of R52, which a claim names as a premise. -/
def State.hasReferencePeer (s : State) : Prop := ∃ pstat, s.peer = .reference pstat

/-- An entry of `TXLOG` is one of the five frames of R59, and its reply has the same length (R9). -/
def Xfer.wellFormed (e : Xfer) : Bool := (decodeFrame e.mosi).isOk && decide (e.miso.length = e.mosi.length)

/-- `IDR` holds no value at all, or an image in all four elements (R17: every command that writes one writes all). -/
def Idr.whole (r : Idr) : Prop := r = ⟨none, none, none, none⟩ ∨ ∃ p, r = idrOf p

/-- `IDOUT` and `EXTOUT` hold a value together, and a value of the width that `EXTOUT` says (R20). -/
def outputsAgree (idout : Option Word32) (extout : Option Bool) : Prop :=
  (idout = none ∧ extout = none) ∨
  (∃ v, idout = some v ∧ extout = some false ∧ v.toNat < 2 ^ Config.stdWidth) ∨
  (∃ v, idout = some v ∧ extout = some true ∧ v.toNat < 2 ^ Config.extWidth)

/-- `RDATA` is filled from its first element on (R15: every burst starts at element 0). -/
def rdataFilledFromStart (r : Vector (Option Byte) Config.maxBurst) : Prop :=
  ∀ i j : Fin Config.maxBurst, i ≤ j → (r[j]).isSome = true → (r[i]).isSome = true

/-- The invariant of the machine. -/
structure MachineInv (s : State) : Prop where
  /-- The peer register space keeps its canonical form (R28). -/
  pregCanonical : s.preg.wf = true
  /-- The code 3 is never written (R90). -/
  errLegal : s.err ≠ errReservedCode
  /-- The image register is written whole (R17). -/
  idrWhole : s.idr.whole
  /-- The unpacked outputs belong together and fit (R20). -/
  outputs : outputsAgree s.idout s.extout
  /-- Whoever unpacks writes the image register too (R82, R84). -/
  outputsHaveImage : s.idout.isSome = true → s.idr.sidl.isSome = true
  /-- The read-data buffer is filled from its start (R15). -/
  rdataFilled : rdataFilledFromStart s.rdata
  /-- Every transaction was one of the five frames, with a reply of its length (R9, R59, R60, R64). -/
  logFrames : ∀ e ∈ s.txlog, e.wellFormed = true
  /-- While the settle interval runs, the last transaction was the reset frame: nothing reaches the peer (R106). -/
  settleAfterReset : s.phase = .settle → ∃ e, s.txlog.getLast? = some e ∧ e.mosi = [0xC0#8]

/-- The next step takes up an illegal command (R90). -/
def stepRaisesIllegal (s : State) : Bool :=
  match s.agenda, s.phase with
  | .present (.command r) :: _, .idle => !(decodeCommand r).isOk
  | _, _ => false

/-- The next `k` steps all answer a next state, and none of them takes up an illegal command: the premise of R91, over every
step of the run as R114 asks. -/
def cleanRun : Nat → State → Prop
  | 0, _ => True
  | k + 1, s => stepRaisesIllegal s = false ∧ ∃ t, step s = .next t ∧ cleanRun k t

/-- The run has ended (R114): nothing is left to do and `PHASE = IDLE`. -/
def runEnded (s : State) : Prop := s.agenda = [] ∧ s.phase = .idle

/-- `RESET` was the first to touch the peer, if anything did (R105): a premise for claims about peer register values. -/
def bootOrdered (log : List Xfer) : Bool :=
  match log with
  | [] => true
  | e :: _ => decide (e.mosi = [0xC0#8])

end Machine
end Sys2Proof
end

