-- ==== Sys2Proof/Certificates/Slice0/Obligations.lean ====
section
/-! DEFINITION. The statements for the provers. First the few predicates they share, then one `def Obligations.<Name>` each. -/

open Sys2Proof Sys2Proof.Machine

namespace Sys2Proof.Stmt

/-- The result registers `RDATA`, `STAT`, `IDR`, `IDOUT`, `EXTOUT` are as before. -/
def sameResults (s t : State) : Prop :=
  t.rdata = s.rdata ∧ t.stat = s.stat ∧ t.idr = s.idr ∧ t.idout = s.idout ∧ t.extout = s.extout

/-- What is not the block's or the peer's registers is as before: the kind of peer, what is still to happen, and what the
host has read. -/
def sameWorld (s t : State) : Prop := t.peer = s.peer ∧ t.agenda = s.agenda ∧ t.hostLog = s.hostLog

/-- Every byte of the peer register space reads as before. -/
def samePreg (s t : State) : Prop := ∀ b : Nat, t.preg.read b = s.preg.read b

/-- `TXLOG` got one entry more: this frame, with a reply of its length. -/
def sentFrame (s t : State) (mosi miso : List Byte) : Prop :=
  t.txlog = s.txlog ++ [⟨mosi, miso⟩] ∧ miso.length = mosi.length

/-- `OP` and `NM1` of a command byte as numbers (R55). -/
def opOf (r : CmdRecord) : Nat := r.cmd.toNat % 16
def nm1Of (r : CmdRecord) : Nat := r.cmd.toNat / 16

end Sys2Proof.Stmt

open Sys2Proof.Stmt

/-! ### Encoding -/

/-- Decoding what the encoder gives a well-formed instruction gives the instruction back, every operand at every value. -/
def Obligations.DecodeEncodeRoundTrip : Prop :=
  ∀ i : Instr, i.wf = true → decode (encode i) = .ok i

/-- Whatever decodes is well formed: a command's burst length is 1 .. `MAX_BURST`, and a bus read or write has data. -/
def Obligations.DecodedInstructionsAreWellFormed : Prop :=
  ∀ (p : Presented) (i : Instr), decode p = .ok i → i.wf = true

/-- R61, R59: a byte sequence is one of the five frames exactly when it is the bytes of that frame, so the peer can tell the
layout from `mosi[0]` and the end of the transaction. -/
def Obligations.FrameDecodesExactlyToItsBytes : Prop :=
  ∀ (mosi : List Byte) (f : BusFrame), decodeFrame mosi = .ok f ↔ (f.wf = true ∧ encodeFrame f = mosi)

/-- A few command bytes and bus frames, written out from R66 and R59, decode to what they stand for. -/
def Obligations.SampleWordsDecode : Prop :=
  decode (.command { CmdRecord.zero with cmd := 0x01 }) = .ok .reset ∧
  decode (.command { CmdRecord.zero with cmd := 0x23, addr := 0x30 }) = .ok (.readn 0x30 3) ∧
  decode (.command { CmdRecord.zero with cmd := 0x0A, addr := 0x31, id := 0x12345678, ext := true })
    = .ok (.writeid 0x31 0x12345678 true) ∧
  decode (.command { CmdRecord.zero with cmd := 0x09, idb := ⟨0x91, 0xA8, 0x56, 0x78⟩ })
    = .ok (.unpack ⟨0x91, 0xA8, 0x56, 0x78⟩) ∧
  decode (.frame [0x05, 0x2C, 0x01, 0x00]) = .ok (.busBitmod 0x2C 0x01 0x00) ∧
  decode (.frame [0xA0, 0x00]) = .ok .busRdstatus ∧
  decodeCommand { CmdRecord.zero with cmd := 0xFC } = .error .illegalOp ∧
  decodeCommand { CmdRecord.zero with cmd := 0x11 } = .error .illegalLen

/-- R57: READN and WRITEN have `n = NM1 + 1`, between 1 and 16; the length is legal only when `n ≤ MAX_BURST`, and a larger
one is `ILLEGAL_LEN`; with this block's `MAX_BURST` every `NM1` is legal. -/
def Obligations.BurstLengthIsNm1PlusOneUpToMaxBurst : Prop :=
  ∀ (maxBurst : Nat) (r : CmdRecord),
    (1 ≤ nm1Of r + 1 ∧ nm1Of r + 1 ≤ 16) ∧
    (opOf r = 3 ∨ opOf r = 5 → maxBurst < nm1Of r + 1 → decodeCommandFor maxBurst r = .error .illegalLen) ∧
    (opOf r = 3 → nm1Of r + 1 ≤ maxBurst → decodeCommandFor maxBurst r = .ok (.readn r.addr (nm1Of r + 1))) ∧
    (opOf r = 5 → nm1Of r + 1 ≤ maxBurst →
      ∃ vs, decodeCommandFor maxBurst r = .ok (.writen r.addr vs) ∧ vs.length = nm1Of r + 1 ∧
        ∀ (k : Nat) (hk : k < Config.maxBurst), k < nm1Of r + 1 → vs[k]? = some r.wdata[k]) ∧
    (opOf r = 3 ∨ opOf r = 5 → ∃ i, decodeCommand r = .ok i)

/-- R54: a field that a command does not use has no effect and is not checked. -/
def Obligations.UnusedRecordFieldsAreIgnored : Prop :=
  ∀ r q : CmdRecord, r.cmd = q.cmd →
    (opOf r ∈ [2, 3, 4, 5, 6, 10, 11] → r.addr = q.addr) →
    (opOf r = 6 → r.mask = q.mask) →
    (opOf r ∈ [4, 6] → r.val = q.val) →
    (opOf r = 5 → ∀ (k : Nat) (hk : k < Config.maxBurst), k ≤ nm1Of r → r.wdata[k] = q.wdata[k]) →
    (opOf r ∈ [8, 10] → r.id = q.id ∧ r.ext = q.ext) →
    (opOf r = 9 → r.idb = q.idb) →
    decodeCommand r = decodeCommand q

/-- R66: whatever the assembler gives can be encoded, and it refuses a line whose values do not fit their fields: an address or byte
above 0xFF, a count outside 1 .. `MAX_BURST`, an `ID` above 0xFFFFFFFF; an operand that fits is taken at its value, never cut. How a
number is read from a text is the model's choice (log entry 17). -/
def Obligations.AssembledCommandsAreWellFormed : Prop :=
  (∀ (mnemonic : List Char) (ops : List (List Char)) (i : Instr), assembleCommand mnemonic ops = some i →
    i.wf = true ∧ ∃ r, encode i = .command r) ∧
  (∀ (t : List Char) (b : Byte), byteOperand t = some b ↔ readNumber t = some b.toNat) ∧
  (∀ (t : List Char) (id : Word32), idOperand t = some id ↔ readNumber t = some id.toNat) ∧
  (∀ (t : List Char) (n : Nat), countOperand t = some n ↔ readNumber t = some n ∧ 1 ≤ n ∧ n ≤ Config.maxBurst) ∧
  (∀ (mnemonic t : List Char) (ops : List (List Char)) (n : Nat), t ∈ ops → readNumber t = some n →
    (0xFFFFFFFF < n → assembleCommand mnemonic ops = none) ∧
    (0xFF < n → mnemonic ≠ "PACK".toList → mnemonic ≠ "WRITEID".toList → assembleCommand mnemonic ops = none)) ∧
  (∀ (t : List Char) (ops : List (List Char)) (n : Nat), readNumber t = some n → 0xFF < n →
    assembleCommand "WRITEID".toList (t :: ops) = none) ∧
  (∀ (a t : List Char) (n : Nat), readNumber t = some n → ¬(1 ≤ n ∧ n ≤ Config.maxBurst) →
    assembleCommand "READN".toList [a, t] = none ∧ assembleCommand "ZERO".toList [a, t] = none)

/-- R67: the pseudo-instructions expand to their commands. -/
def Obligations.PseudoInstructionsExpand : Prop :=
  ∀ (a m : Byte) (n : Nat),
    setBits a m = .bitmod a m m ∧ clearBits a m = .bitmod a m 0x00 ∧
    zeroRegs a n = .writen a (List.replicate n 0x00)

/-! ### The step -/

/-- A presented command or frame that decodes runs as the meaning of its instruction (R69), on the state in which it is no
longer still to happen. That a bus frame presented on its own runs the same way is the model's choice (log entry 7), and so is that
what is presented stands on the agenda (log entry 11). -/
def Obligations.StepRunsDecodedInstruction : Prop :=
  ∀ (s : State) (p : Presented) (rest : List Event) (i : Instr),
    s.phase = .idle → s.agenda = .present p :: rest → decode p = .ok i → step s = exec i (s.withAgenda rest)

/-- R65, R92: each presented command is checked in this order: hold, reserved `OP`, wrong length, and else its rule runs. An
illegal command writes `ERR` and nothing else (R90). That settle-elapsed is the one step taken while a command is held is the
model's choice (log entry 3). -/
def Obligations.PresentedCommandIsCheckedInOrder : Prop :=
  ∀ (s : State) (r : CmdRecord) (rest : List Event), s.agenda = .present (.command r) :: rest →
    (s.phase = .settle → step s = .next (s.withPhase .idle)) ∧
    (s.phase = .idle → (opOf r = 0 ∨ 12 ≤ opOf r) → step s = .next ((s.withAgenda rest).withErr 1)) ∧
    (s.phase = .idle → ¬(opOf r = 0 ∨ 12 ≤ opOf r) →
      ((opOf r = 3 ∨ opOf r = 5) ∧ Config.maxBurst < nm1Of r + 1 ∨ ¬(opOf r = 3 ∨ opOf r = 5) ∧ nm1Of r ≠ 0) →
      step s = .next ((s.withAgenda rest).withErr 2)) ∧
    (s.phase = .idle → ¬(opOf r = 0 ∨ 12 ≤ opOf r) →
      ((opOf r = 3 ∨ opOf r = 5) ∨ nm1Of r = 0) →
      ∃ i t, decodeCommand r = .ok i ∧ exec i (s.withAgenda rest) = .next t ∧ step s = .next t ∧ t.err = 0)

/-- R62: a reserved `OP` raises `ILLEGAL_OP`, sends no frame and changes only `ERR`. -/
def Obligations.ReservedOpRaisesIllegalOp : Prop :=
  ∀ (s : State) (r : CmdRecord) (rest : List Event),
    s.phase = .idle → s.agenda = .present (.command r) :: rest →
    r.cmd.extractLsb' 0 4 ∈ [0x0#4, 0xC#4, 0xD#4, 0xE#4, 0xF#4] →
    ∃ t, step s = .next t ∧ t.err = 1 ∧ t.txlog = s.txlog ∧ t.preg = s.preg ∧ sameResults s t ∧ t.phase = .idle ∧
      t.peer = s.peer ∧ t.draws = s.draws ∧ t.hostLog = s.hostLog ∧ t.agenda = rest

/-- R63: any `NM1` but 0 with an `OP` that is neither READN nor WRITEN (nor reserved) raises `ILLEGAL_LEN`; it sends no frame
and changes only `ERR`. -/
def Obligations.NonzeroNm1RaisesIllegalLen : Prop :=
  ∀ (s : State) (r : CmdRecord) (rest : List Event),
    s.phase = .idle → s.agenda = .present (.command r) :: rest →
    r.cmd.extractLsb' 0 4 ∈ [0x1#4, 0x2#4, 0x4#4, 0x6#4, 0x7#4, 0x8#4, 0x9#4, 0xA#4, 0xB#4] →
    r.cmd.extractLsb' 4 4 ≠ 0#4 →
    ∃ t, step s = .next t ∧ t.err = 2 ∧ t.txlog = s.txlog ∧ t.preg = s.preg ∧ sameResults s t ∧ t.phase = .idle ∧
      t.peer = s.peer ∧ t.draws = s.draws ∧ t.hostLog = s.hostLog ∧ t.agenda = rest

/-- R14: every accepted command writes `ERR`; it becomes 0 when the command completes. -/
def Obligations.AcceptedCommandClearsErr : Prop :=
  ∀ (r : CmdRecord) (i : Instr) (s : State), decodeCommand r = .ok i → s.phase = .idle →
    ∃ t, exec i s = .next t ∧ t.err = 0

/-- R91, R114: a step that takes up no illegal command keeps `ERR = 0` (that a bus frame on its own writes no `ERR` is the model's
choice, log entry 7), and one that takes up an illegal command leaves the
code of its error, so a run has no illegal command exactly when no step of it takes one up. -/
def Obligations.ErrTellsWhetherACommandWasIllegal : Prop :=
  ∀ s t : State, step s = .next t →
    (stepRaisesIllegal s = false → s.err = 0 → t.err = 0) ∧
    (stepRaisesIllegal s = true → t.err = 1 ∨ t.err = 2)

/-- R13, R106: while `PHASE = SETTLE` no step makes a transaction, writes `ERR` or any result register; the peer's registers
change only by the peer's own hardware, whose changes are events by the model's choice (log entry 10). -/
def Obligations.NothingReachesThePeerWhileSettling : Prop :=
  ∀ s t : State, s.phase = .settle → step s = .next t →
    t.txlog = s.txlog ∧ t.err = s.err ∧ sameResults s t ∧ t.peer = s.peer ∧ t.draws = s.draws ∧
    ((∀ a v rest, s.agenda ≠ .peerChange a v :: rest) → t.preg = s.preg)

/-- R106: settle-elapsed is enabled only while `PHASE = SETTLE`, where it sets `IDLE` and nothing else. That the event can stand
on the agenda, and that at `IDLE`, where R106 does not enable it, it is taken off and changes nothing, is the model's choice (log
entry 3). -/
def Obligations.SettleElapsedOnlySetsIdle : Prop :=
  ∀ (s : State) (rest : List Event), s.agenda = .settleElapsed :: rest →
    (s.phase = .settle → step s = .next ((s.withAgenda rest).withPhase .idle)) ∧
    (s.phase = .idle → step s = .next (s.withAgenda rest))

/-- R106 (weak fairness): the settle interval ends, with no transaction made, also while the host reads registers (R23); only a
read of a register that holds no value, which stops the machine (R22), is left out. That it takes at most one step more than there are things to happen is
the model's choice (log entry 3). -/
def Obligations.SettleIntervalEnds : Prop :=
  ∀ s : State, s.phase = .settle → (∀ r, Event.hostRead r ∈ s.agenda → resultReg s r ≠ none) →
    ∃ (k : Nat) (t : State), k ≤ s.agenda.length + 1 ∧ Host.Core.run Sys2Proof.core k s = .next t ∧
      t.phase = .idle ∧ t.txlog = s.txlog ∧ t.err = s.err

/-- R5, R26, R47: a step makes at most one transaction, and adds it at the end of `TXLOG`; it makes one only for what is
presented next, which it then takes off what is to happen. That a bus frame can be presented on its own is the model's choice (log
entry 7). -/
def Obligations.LogGrowsByAtMostOneTransaction : Prop :=
  ∀ s t : State, step s = .next t →
    ∃ d : List Xfer, t.txlog = s.txlog ++ d ∧ d.length ≤ 1 ∧
      (d ≠ [] → s.phase = .idle ∧ ∃ p, s.agenda = .present p :: t.agenda)

/-- Where a step stops: a fault only where the host reads a register that holds no value or the code 3 (R22, R90; 93 U1, U4), a
refusal only where bytes that are none of the five frames are put on the bus: that refusal is the model's (log entry 13, DEDUCED from
R64, which gives such bytes no meaning). No presented command ever stops the machine (R94). -/
def Obligations.StepStopsOnlyWhereNamed : Prop :=
  ∀ s : State,
    (∀ f, step s = .fault f →
      ∃ r rest, s.agenda = .hostRead r :: rest ∧ resultReg s r = none ∧
        (f = .readOfNone r ∧ r ≠ .err ∨ f = .errReserved ∧ r = .err)) ∧
    (∀ q, step s = .refused q →
      q = .unknownFrame ∧ s.phase = .idle ∧
      ∃ mosi rest, s.agenda = .present (.frame mosi) :: rest ∧ ∀ f : BusFrame, f.wf = true → encodeFrame f ≠ mosi)

/-- R23: the host may read a result register that holds a value, and reading changes no register. That the read is an event, that the
value is kept in `hostLog` and that it is padded with zeros to 32 bits is the model's choice (log entry 9). What `IDR` reads as is
`wiredIdr`, with its hardwired bits zero (R18, R19; log entry 23). -/
def Obligations.HostReadGivesTheRegister : Prop :=
  ∀ (s : State) (r : ResultReg) (v : Word32) (rest : List Event),
    s.agenda = .hostRead r :: rest →
    ((∃ (i : Fin 16) (b : Byte), r = .rdata i ∧ s.rdata[i] = some b ∧ v.toNat = b.toNat) ∨
     (∃ b : Byte, r = .stat ∧ s.stat = some b ∧ v.toNat = b.toNat) ∨
     (∃ (i : Fin 4) (b : Byte), r = .idr i ∧ idrAt (wiredIdr s.idr) i = some b ∧ v.toNat = b.toNat) ∨
     (r = .idout ∧ s.idout = some v) ∨
     (∃ x : Bool, r = .extout ∧ s.extout = some x ∧ v.toNat = x.toNat) ∨
     (r = .err ∧ s.err ≠ 3 ∧ v.toNat = s.err.toNat)) →
    step s = .next ((s.withAgenda rest).withHostLog (s.hostLog ++ [⟨r, v⟩]))

/-- R22: a host read of a register that holds no value is a fault; after power-on that is every result register. -/
def Obligations.HostReadOfNoneFaults : Prop :=
  (∀ (s : State) (r : ResultReg) (rest : List Event), s.agenda = .hostRead r :: rest →
    ((∃ i : Fin 16, r = .rdata i ∧ s.rdata[i] = none) ∨ (r = .stat ∧ s.stat = none) ∨
     (∃ i : Fin 4, r = .idr i ∧ [s.idr.sidh, s.idr.sidl, s.idr.eid8, s.idr.eid0][i] = none) ∨
     (r = .idout ∧ s.idout = none) ∨ (r = .extout ∧ s.extout = none)) →
    step s = .fault (.readOfNone r)) ∧
  (∀ r : ResultReg, r ≠ .err → step (State.reset.withAgenda [.hostRead r]) = .fault (.readOfNone r))

/-- R48: the peer's hardware may change a peer register at any time between transactions, and nothing of the block changes it, and the reference peer (R52) has no such change. That a change is an event on the agenda, and that with the reference peer the
event is taken off with no effect, is the model's choice (log entry 10). -/
def Obligations.PeerHardwareChangesOnlyPeerRegisters : Prop :=
  ∀ (s : State) (a v : Byte) (rest : List Event), s.agenda = .peerChange a v :: rest →
    ∃ t, step s = .next t ∧ t.agenda = rest ∧ t.phase = s.phase ∧ t.err = s.err ∧ sameResults s t ∧ t.txlog = s.txlog ∧
      t.peer = s.peer ∧ t.hostLog = s.hostLog ∧ t.draws = s.draws ∧
      (∀ b : Nat, b ≠ a.toNat → t.preg.read b = s.preg.read b) ∧
      (s.peer = .volatile → t.preg.read a.toNat = some v) ∧
      (s.hasReferencePeer → t.preg = s.preg)

/-- R114: after the end of a run the machine stays as it is (the model's choice, log entry 4). -/
def Obligations.EndedRunStays : Prop :=
  ∀ s : State, runEnded s → step s = .next s

/-! ### The invariant -/

/-- R27, R104: the block's state at power-on, in which a command is accepted at once. The other fields of the reset state are
the model's. -/
def Obligations.PowerOnState : Prop :=
  State.reset.phase = .idle ∧ State.reset.err = 0 ∧ (∀ i : Fin 16, State.reset.rdata[i] = none) ∧
  State.reset.stat = none ∧ State.reset.idr = ⟨none, none, none, none⟩ ∧ State.reset.idout = none ∧
  State.reset.extout = none ∧ State.reset.txlog = [] ∧
  ∀ (r : CmdRecord) (i : Instr), decodeCommand r = .ok i →
    step (State.reset.withAgenda [.present (.command r)]) = exec i State.reset

/-- The invariant holds after power-on. -/
def Obligations.ResetMeetsInv : Prop := MachineInv State.reset

/-- Every step keeps the invariant: the peer register space is canonical, `ERR` is never 3 (R90), the image register is written
whole (R17), the unpacked outputs fit the form they
name (R20), `RDATA` is filled from its start (R15), every transaction is one of the five frames with a reply of its length (R9, R59,
R60), and while the settle interval runs the last transaction is the reset frame (R106; that a bus frame on its own is held and logged
as a command's is the model's choice, log entry 7). -/
def Obligations.StepKeepsInv : Prop := ∀ s t : State, MachineInv s → step s = .next t → MachineInv t

/-- R60, R64: no step, whatever the state, puts another opcode on the bus than the five. -/
def Obligations.OnlyFiveOpcodesReachTheBus : Prop :=
  ∀ s t : State, step s = .next t →
    ∃ d : List Xfer, t.txlog = s.txlog ++ d ∧
      ∀ e ∈ d, ∃ op rest, e.mosi = op :: rest ∧ op ∈ [0xC0#8, 0x03#8, 0x02#8, 0x05#8, 0xA0#8]

/-- R26: the block never reads `TXLOG`: what an instruction does is the same whatever the log holds. That every instruction answers
a next state in every state rests on the model's choices also: in `SETTLE` it answers the state unchanged (log entry 8), with a burst
length that no command has it sends the frame of that length (log entry 22), and a bus row is held and run like a command (log
entry 7). -/
def Obligations.NoInstructionReadsTheLog : Prop :=
  ∀ (i : Instr) (s : State), ∃ (t : State) (d : List Xfer), exec i s = .next t ∧ t.txlog = s.txlog ++ d ∧
    ∀ l : List Xfer, exec i (s.withTxlog l) = .next (t.withTxlog (l ++ d))

/-- R9, R10: the block sees the peer's registers only through `miso`. Whatever the peer register space holds, an instruction
that gets the same replies leaves the same in every register of the block. That it answers a next state in `SETTLE` too (log entry 8),
also with a burst length that no command has (log entry 22), and that a bus row is an instruction (log entry 7) are the model's
choices. -/
def Obligations.BlockSeesThePeerOnlyThroughReplies : Prop :=
  ∀ (i : Instr) (s : State) (m : Memory),
    ∃ t u, exec i s = .next t ∧ exec i (s.withPreg m) = .next u ∧
      (u.txlog = t.txlog → u.phase = t.phase ∧ u.err = t.err ∧ sameResults t u)

/-- R13, R15, R16, R17, R20: which instruction writes which register. That the bus row BUS_RESET writes `PHASE` as `RESET` does is
the model's choice (log entry 7). -/
def Obligations.OnlyTheNamedCommandsWriteResults : Prop :=
  ∀ (i : Instr) (s t : State), exec i s = .next t →
    (t.stat ≠ s.stat → i = .rdstatus) ∧
    (t.rdata ≠ s.rdata → (∃ a, i = .read a) ∨ ∃ a n, i = .readn a n) ∧
    (t.idr ≠ s.idr → (∃ x y, i = .pack x y) ∨ (∃ p, i = .unpack p) ∨ (∃ a x y, i = .writeid a x y) ∨ ∃ a, i = .readid a) ∧
    (t.idout ≠ s.idout ∨ t.extout ≠ s.extout → (∃ p, i = .unpack p) ∨ ∃ a, i = .readid a) ∧
    (t.phase ≠ s.phase → (i = .reset ∨ i = .busReset) ∧ t.phase = .settle)

/-- A held command is not executed (R13). That `exec` in a `SETTLE` state answers that state is the model's choice (log entry 8),
and so is that a bus row is held like a command (log entry 7). -/
def Obligations.HeldInstructionChangesNothing : Prop :=
  ∀ (i : Instr) (s : State), s.phase = .settle → exec i s = .next s

/-! ### Framer commands: completion, result and frame -/

/-- R70: `RESET` sends `[0xC0]` and starts the settle interval; the peer holds its reset image (R42); nothing else changes. -/
def Obligations.ResetEffect : Prop :=
  ∀ s : State, s.phase = .idle →
    ∃ t miso, exec .reset s = .next t ∧ t.phase = .settle ∧ t.err = 0 ∧ sameResults s t ∧ sameWorld s t ∧
      sentFrame s t [0xC0] miso ∧
      (s.peer = .volatile → ∀ a : Byte, t.preg.read a.toNat = some (Config.peerResetImage a)) ∧
      (s.hasReferencePeer → ∀ a : Byte, t.preg.read a.toNat = some 0x00)

/-- R71: `READ a` sends `[0x03, a, DUMMY]` and keeps `miso[2]` in `RDATA[0]`; nothing else changes. From the reference peer
(R52) that is the register's byte, after two bytes 0xFF. -/
def Obligations.ReadEffect : Prop :=
  ∀ (a : Byte) (s : State), s.phase = .idle →
    ∃ t b0 b1 v, exec (.read a) s = .next t ∧ t.phase = .idle ∧ t.err = 0 ∧
      sentFrame s t [0x03, a, 0x00] [b0, b1, v] ∧
      (∀ i : Fin 16, t.rdata[i] = if i.val = 0 then some v else s.rdata[i]) ∧
      t.stat = s.stat ∧ t.idr = s.idr ∧ t.idout = s.idout ∧ t.extout = s.extout ∧ sameWorld s t ∧ samePreg s t ∧
      (s.hasReferencePeer → b0 = 0xFF ∧ b1 = 0xFF ∧ ∀ w, s.preg.read a.toNat = some w → v = w)

/-- R72: `READN a, n` sends `[0x03, a] ++ [DUMMY] * n` and keeps `miso[2 .. n+1]` in `RDATA[0 .. n-1]`; the elements after them
and everything else are unchanged. From the reference peer (R52) these are the bytes at `a`, `a+1`, ..., wrapping at the top. -/
def Obligations.ReadnEffect : Prop :=
  ∀ (a : Byte) (n : Nat) (s : State), 1 ≤ n → n ≤ Config.maxBurst → s.phase = .idle →
    ∃ t hdr data, exec (.readn a n) s = .next t ∧ t.phase = .idle ∧ t.err = 0 ∧ hdr.length = 2 ∧ data.length = n ∧
      sentFrame s t ([0x03, a] ++ List.replicate n 0x00) (hdr ++ data) ∧
      (∀ i : Fin 16, t.rdata[i] = if i.val < n then data[i.val]? else s.rdata[i]) ∧
      t.stat = s.stat ∧ t.idr = s.idr ∧ t.idout = s.idout ∧ t.extout = s.extout ∧ sameWorld s t ∧ samePreg s t ∧
      (s.hasReferencePeer → hdr = [0xFF, 0xFF] ∧ ∀ k, k < n → ∀ w,
        s.preg.read (a + BitVec.ofNat 8 k).toNat = some w → data[k]? = some w)

/-- R72, R74 (corner cases): a burst of one is the single-register command. -/
def Obligations.BurstOfOneIsTheSingleCommand : Prop :=
  ∀ (a v : Byte) (s : State),
    exec (.readn a 1) s = exec (.read a) s ∧ exec (.writen a [v]) s = exec (.write a v) s

/-- R73: `WRITE a, v` sends `[0x02, a, v]`; the peer register `a` gets `v` (R39), every other one and everything else is
unchanged. -/
def Obligations.WriteEffect : Prop :=
  ∀ (a v : Byte) (s : State), s.phase = .idle →
    ∃ t miso, exec (.write a v) s = .next t ∧ t.phase = .idle ∧ t.err = 0 ∧ sameResults s t ∧ sameWorld s t ∧
      sentFrame s t [0x02, a, v] miso ∧ t.preg.read a.toNat = some v ∧
      ∀ b : Nat, b ≠ a.toNat → t.preg.read b = s.preg.read b

/-- R74: `WRITEN` sends `[0x02, a] ++ vs` in one frame; the peer's burst addresses get the bytes in order (R39, R44): below 0xFF
they count up, and the reference peer wraps at the top (R52). Every other address and everything else is unchanged. -/
def Obligations.WritenEffect : Prop :=
  ∀ (a : Byte) (vs : List Byte) (s : State), 1 ≤ vs.length → vs.length ≤ Config.maxBurst → s.phase = .idle →
    ∃ t miso, exec (.writen a vs) s = .next t ∧ t.phase = .idle ∧ t.err = 0 ∧ sameResults s t ∧ sameWorld s t ∧
      sentFrame s t ([0x02, a] ++ vs) miso ∧
      (a.toNat + vs.length ≤ 256 → ∀ k, k < vs.length → t.preg.read (a.toNat + k) = vs[k]?) ∧
      (s.hasReferencePeer → ∀ k, k < vs.length → t.preg.read (a + BitVec.ofNat 8 k).toNat = vs[k]?) ∧
      ∀ b : Nat, (∀ k, k < vs.length → (burstAddr s.peer a k).toNat ≠ b) → t.preg.read b = s.preg.read b

/-- R75: `BITMOD a, m, v` sends `[0x05, a, m, v]`; where the peer masks bit-modify (R40) the register's bits under the mask take
the value's, and the reference peer (R52) keeps the other bits; every other address and everything else is unchanged. -/
def Obligations.BitmodEffect : Prop :=
  ∀ (a m v : Byte) (s : State), s.phase = .idle →
    ∃ t miso w, exec (.bitmod a m v) s = .next t ∧ t.phase = .idle ∧ t.err = 0 ∧ sameResults s t ∧ sameWorld s t ∧
      sentFrame s t [0x05, a, m, v] miso ∧ t.preg.read a.toNat = some w ∧
      (s.peer = .volatile → w &&& m = v &&& m ∨ Config.peerBitmodOk a = false) ∧
      (s.hasReferencePeer → ∀ old, s.preg.read a.toNat = some old → w = (old &&& ~~~m) ||| (v &&& m)) ∧
      ∀ b : Nat, b ≠ a.toNat → t.preg.read b = s.preg.read b

/-- R75 (corner cases), for the reference peer: with mask 0xFF the effect on the peer is that of `WRITE a, v`, and with mask 0x00
the register keeps its byte. -/
def Obligations.BitmodMaskCorners : Prop :=
  ∀ (a v old : Byte) (s : State), s.phase = .idle → s.hasReferencePeer → s.preg.read a.toNat = some old →
    ∃ t u w, exec (.bitmod a 0xFF v) s = .next t ∧ exec (.write a v) s = .next u ∧ exec (.bitmod a 0x00 v) s = .next w ∧
      t.preg = u.preg ∧ samePreg s w

/-- R76: `RDSTATUS` sends `[0xA0, DUMMY]` and keeps `miso[1]` in `STAT`; nothing else changes. Bits 1:0 say which receive buffers
hold an unread message (R41); that this is `Config.rxUnread` at the count of draws is the model's choice (log entries 21 and 5). The
reference peer returns its `PSTAT` (R52). -/
def Obligations.RdstatusEffect : Prop :=
  ∀ s : State, s.phase = .idle →
    ∃ t b0 b, exec .rdstatus s = .next t ∧ t.phase = .idle ∧ t.err = 0 ∧ sentFrame s t [0xA0, 0x00] [b0, b] ∧
      t.stat = some b ∧ t.rdata = s.rdata ∧ t.idr = s.idr ∧ t.idout = s.idout ∧ t.extout = s.extout ∧
      sameWorld s t ∧ samePreg s t ∧
      (s.peer = .volatile → rx0Pending b = (Config.rxUnread (s.draws + 1)).getLsbD 0 ∧
        rx1Pending b = (Config.rxUnread (s.draws + 1)).getLsbD 1) ∧
      (∀ pstat, s.peer = .reference pstat → b0 = 0xFF ∧ b = pstat)

/-! ### Codec commands -/

/-- R81: `PACK` writes the image of R79 into `IDR` and clears `ERR`; it sends no frame and changes nothing else. -/
def Obligations.PackEffect : Prop :=
  ∀ (id : Word32) (x : Bool) (s : State), s.phase = .idle →
    exec (.pack id x) s = .next { s with
      idr := ⟨some (pack id x).sidh, some (pack id x).sidl, some (pack id x).eid8, some (pack id x).eid0⟩, err := 0 }

/-- R82: `UNPACK` writes the image whole into `IDR` and its identifier and flag (R80) into `IDOUT` and `EXTOUT`; it sends no frame
and changes nothing else. -/
def Obligations.UnpackEffect : Prop :=
  ∀ (p : Image) (s : State), s.phase = .idle →
    exec (.unpack p) s = .next { s with
      idr := ⟨some p.sidh, some p.sidl, some p.eid8, some p.eid0⟩,
      idout := some (unpack p).1, extout := some (unpack p).2, err := 0 }

/-- R83: `WRITEID` writes the image into `IDR` and sends its four bytes in one WRITE frame; the peer gets SIDH at `a`, SIDL at
`a+1`, EID8 at `a+2`, EID0 at `a+3` (R31), whatever the peer below 0xFD and wrapping for the reference peer; nothing else
changes. -/
def Obligations.WriteidEffect : Prop :=
  ∀ (a : Byte) (id : Word32) (x : Bool) (s : State), s.phase = .idle →
    ∃ t miso, exec (.writeid a id x) s = .next t ∧ t.phase = .idle ∧ t.err = 0 ∧
      t.idr = ⟨some (pack id x).sidh, some (pack id x).sidl, some (pack id x).eid8, some (pack id x).eid0⟩ ∧
      t.rdata = s.rdata ∧ t.stat = s.stat ∧ t.idout = s.idout ∧ t.extout = s.extout ∧ sameWorld s t ∧
      sentFrame s t [0x02, a, (pack id x).sidh, (pack id x).sidl, (pack id x).eid8, (pack id x).eid0] miso ∧
      (a.toNat ≤ 0xFC ∨ s.hasReferencePeer →
        t.preg.read a.toNat = some (pack id x).sidh ∧ t.preg.read (a + 1).toNat = some (pack id x).sidl ∧
        t.preg.read (a + 2).toNat = some (pack id x).eid8 ∧ t.preg.read (a + 3).toNat = some (pack id x).eid0) ∧
      ∀ b : Nat, (∀ k, k < 4 → (burstAddr s.peer a k).toNat ≠ b) → t.preg.read b = s.preg.read b

/-- R84: `READID` reads four bytes in one READ frame, keeps them in `IDR` and their identifier and flag in `IDOUT` and `EXTOUT`;
nothing else changes. From the reference peer (R52) they are the bytes at `a` .. `a+3`. -/
def Obligations.ReadidEffect : Prop :=
  ∀ (a : Byte) (s : State), s.phase = .idle →
    ∃ t b0 b1 p, exec (.readid a) s = .next t ∧ t.phase = .idle ∧ t.err = 0 ∧
      sentFrame s t [0x03, a, 0x00, 0x00, 0x00, 0x00] [b0, b1, p.sidh, p.sidl, p.eid8, p.eid0] ∧
      t.idr = ⟨some p.sidh, some p.sidl, some p.eid8, some p.eid0⟩ ∧
      t.idout = some (unpack p).1 ∧ t.extout = some (unpack p).2 ∧
      t.rdata = s.rdata ∧ t.stat = s.stat ∧ sameWorld s t ∧ samePreg s t ∧
      (s.hasReferencePeer → ∀ q : Image,
        s.preg.read a.toNat = some q.sidh → s.preg.read (a + 1).toNat = some q.sidl →
        s.preg.read (a + 2).toNat = some q.eid8 → s.preg.read (a + 3).toNat = some q.eid0 → p = q)

/-- R17, R81 to R84: each of the four commands writes its image whole into `IDR`: the packed one, the one of the record, or the reply,
which `IDOUT` and `EXTOUT` then name. R18, R19, R23: what the host then reads of `IDR` are the fields of the form's table, with zeros
in the bits that it shows as zero. That R23's hardwired bits read as zero while the write is whole is the model's reading (log entry
23). -/
def Obligations.IdrAfterACommandThatWritesIt : Prop :=
  ∀ (i : Instr) (s : State), s.phase = .idle →
    ((∃ id x, i = .pack id x) ∨ (∃ p, i = .unpack p) ∨ (∃ a id x, i = .writeid a id x) ∨ ∃ a, i = .readid a) →
    ∃ (t : State) (q : Image), exec i s = .next t ∧ t.idr = ⟨some q.sidh, some q.sidl, some q.eid8, some q.eid0⟩ ∧
      (∀ id x, (i = .pack id x ∨ ∃ a, i = .writeid a id x) → q = pack id x) ∧
      (∀ p, i = .unpack p → q = p) ∧
      (∀ a, i = .readid a → t.idout = some (unpack q).1 ∧ t.extout = some (unpack q).2 ∧
        ∃ b0 b1, sentFrame s t [0x03, a, 0x00, 0x00, 0x00, 0x00] [b0, b1, q.sidh, q.sidl, q.eid8, q.eid0]) ∧
      resultReg t (.idr 0) = some (q.sidh.setWidth 32) ∧
      (q.sidl.getLsbD 3 = false →
        resultReg t (.idr 1) = some ((q.sidl &&& 0xE0).setWidth 32) ∧ resultReg t (.idr 2) = some 0 ∧
        resultReg t (.idr 3) = some 0) ∧
      (q.sidl.getLsbD 3 = true →
        resultReg t (.idr 1) = some ((q.sidl &&& 0xEB).setWidth 32) ∧
        resultReg t (.idr 2) = some (q.eid8.setWidth 32) ∧ resultReg t (.idr 3) = some (q.eid0.setWidth 32))

/-- R18, R19, R23: in every state, whatever `IDR` holds, a host read of `IDR` shows zeros in the hardwired bits: SIDL[4] and SIDL[2]
always, with EXIDE clear SIDL[1:0], EID8 and EID0 too; EXIDE reads as it was written. That R23's hardwired bits are these is the
model's reading (log entry 23), and the host log is its own (log entry 9). -/
def Obligations.HardwiredBitsOfIdrReadZero : Prop :=
  ∀ (s t : State) (i : Fin 4) (rest : List Event), s.agenda = .hostRead (.idr i) :: rest → step s = .next t →
    ∃ v : Word32, t.hostLog = s.hostLog ++ [⟨.idr i, v⟩] ∧
      (i = 1 → v.getLsbD 4 = false ∧ v.getLsbD 2 = false ∧
        (v.getLsbD 3 = false → v.getLsbD 1 = false ∧ v.getLsbD 0 = false) ∧ s.idr.sidl.map (·.getLsbD 3) = some (v.getLsbD 3)) ∧
      (i = 2 ∨ i = 3 → ∀ b, s.idr.sidl = some b → b.getLsbD 3 = false → v = 0)

/-! ### Bus rows -/

/-- Rows BUS_READ, BUS_WRITE, BUS_BITMOD, BUS_RDSTATUS (R38 to R41): a frame on its own is one transaction; no result register and
not `ERR` (the model's choice, log entry 7); reads change no peer register, a write or a bit-modify only the addresses it
names. -/
def Obligations.BusFrameEffect : Prop :=
  (∀ (a : Byte) (n : Nat) (s : State), 1 ≤ n → s.phase = .idle →
    ∃ t miso, exec (.busRead a n) s = .next t ∧ t.phase = .idle ∧ t.err = s.err ∧ sameResults s t ∧ sameWorld s t ∧
      sentFrame s t ([0x03, a] ++ List.replicate n 0x00) miso ∧ samePreg s t) ∧
  (∀ s : State, s.phase = .idle →
    ∃ t miso, exec .busRdstatus s = .next t ∧ t.phase = .idle ∧ t.err = s.err ∧ sameResults s t ∧ sameWorld s t ∧
      sentFrame s t [0xA0, 0x00] miso ∧ samePreg s t) ∧
  (∀ (a : Byte) (vs : List Byte) (s : State), 1 ≤ vs.length → s.phase = .idle →
    ∃ t miso, exec (.busWrite a vs) s = .next t ∧ t.phase = .idle ∧ t.err = s.err ∧ sameResults s t ∧ sameWorld s t ∧
      sentFrame s t ([0x02, a] ++ vs) miso ∧
      (a.toNat + vs.length ≤ 256 → ∀ k, k < vs.length → t.preg.read (a.toNat + k) = vs[k]?) ∧
      ∀ b : Nat, (∀ k, k < vs.length → (burstAddr s.peer a k).toNat ≠ b) → t.preg.read b = s.preg.read b) ∧
  (∀ (a m v : Byte) (s : State), s.phase = .idle →
    ∃ t miso w, exec (.busBitmod a m v) s = .next t ∧ t.phase = .idle ∧ t.err = s.err ∧ sameResults s t ∧ sameWorld s t ∧
      sentFrame s t [0x05, a, m, v] miso ∧ t.preg.read a.toNat = some w ∧
      (s.hasReferencePeer → ∀ old, s.preg.read a.toNat = some old → w = (old &&& ~~~m) ||| (v &&& m)) ∧
      ∀ b : Nat, b ≠ a.toNat → t.preg.read b = s.preg.read b)

/-- Row BUS_RESET (R42, R106): the frame `[0xC0]` on its own resets the peer's registers and starts the settle interval (the
model's choice, log entry 7), and changes nothing else. -/
def Obligations.BusResetEffect : Prop :=
  ∀ s : State, s.phase = .idle →
    ∃ t miso, exec .busReset s = .next t ∧ t.phase = .settle ∧ t.err = s.err ∧ sameResults s t ∧ sameWorld s t ∧
      sentFrame s t [0xC0] miso ∧
      (s.peer = .volatile → ∀ a : Byte, t.preg.read a.toNat = some (Config.peerResetImage a)) ∧
      (s.hasReferencePeer → ∀ a : Byte, t.preg.read a.toNat = some 0x00)

/-- A bus frame on its own leaves the machine as the command that sends it does, but for `ERR` and the result register
(R59; what a bus frame on its own writes is the model's choice, log entry 7, and so is what READN and WRITEN do with a length that no
command has, log entry 22). -/
def Obligations.BusFrameActsLikeItsCommand : Prop :=
  ∀ (a m v : Byte) (vs : List Byte) (n : Nat) (s : State), s.phase = .idle →
    (∃ t, exec .reset s = .next t ∧ exec .busReset s = .next (t.withErr s.err)) ∧
    (∃ t, exec (.readn a n) s = .next t ∧ exec (.busRead a n) s = .next ((t.withErr s.err).withRdata s.rdata)) ∧
    (∃ t, exec (.writen a vs) s = .next t ∧ exec (.busWrite a vs) s = .next (t.withErr s.err)) ∧
    (∃ t, exec (.bitmod a m v) s = .next t ∧ exec (.busBitmod a m v) s = .next (t.withErr s.err)) ∧
    (∃ t, exec .rdstatus s = .next t ∧ exec .busRdstatus s = .next { t.withErr s.err with stat := s.stat })

/-! ### The reference peer -/

/-- R52: under the reference peer a read returns the last value written: what `WRITEN` wrote, a `READN` of the same burst reads,
also across the top of the address space. -/
def Obligations.ReferencePeerReadsBackWhatWasWritten : Prop :=
  ∀ (a : Byte) (vs : List Byte) (s : State),
    1 ≤ vs.length → vs.length ≤ Config.maxBurst → s.phase = .idle → s.hasReferencePeer →
    ∃ t u, exec (.writen a vs) s = .next t ∧ exec (.readn a vs.length) t = .next u ∧
      ∀ i : Fin 16, i.val < vs.length → u.rdata[i] = vs[i.val]?

/-- R85 through the reference peer: `WRITEID` then `READID` of the same base gives back the identifier, cut to its form, and the
flag, and the image register holds the packed image. -/
def Obligations.WriteidThenReadidGivesTheIdentifier : Prop :=
  ∀ (a : Byte) (id : Word32) (x : Bool) (s : State), s.phase = .idle → s.hasReferencePeer →
    ∃ t u, exec (.writeid a id x) s = .next t ∧ exec (.readid a) t = .next u ∧
      u.idout = some (id &&& (if x then 0x1FFFFFFF else 0x7FF)) ∧ u.extout = some x ∧ u.idr = idrOf (pack id x)

/-! ### The codec's functions -/

/-- R77, R18: `pack_std` bit by bit. -/
def Obligations.PackStdBitLayout : Prop :=
  ∀ id : BitVec 11,
    (∀ k, k < 8 → (packStd id).sidh.getLsbD k = id.getLsbD (k + 3)) ∧
    (∀ k, k < 3 → (packStd id).sidl.getLsbD (k + 5) = id.getLsbD k) ∧
    (∀ k, k < 5 → (packStd id).sidl.getLsbD k = false) ∧
    (packStd id).eid8 = 0x00 ∧ (packStd id).eid0 = 0x00

/-- R78, R19: `pack_ext` bit by bit. -/
def Obligations.PackExtBitLayout : Prop :=
  ∀ id : BitVec 29,
    (∀ k, k < 8 → (packExt id).sidh.getLsbD k = id.getLsbD (k + 21)) ∧
    (∀ k, k < 3 → (packExt id).sidl.getLsbD (k + 5) = id.getLsbD (k + 18)) ∧
    (packExt id).sidl.getLsbD 4 = false ∧ (packExt id).sidl.getLsbD 3 = true ∧ (packExt id).sidl.getLsbD 2 = false ∧
    (∀ k, k < 2 → (packExt id).sidl.getLsbD k = id.getLsbD (k + 16)) ∧
    (∀ k, k < 8 → (packExt id).eid8.getLsbD k = id.getLsbD (k + 8)) ∧
    (∀ k, k < 8 → (packExt id).eid0.getLsbD k = id.getLsbD k)

/-- R79: `pack` takes the form by the flag and ignores the identifier bits above the form's width. -/
def Obligations.PackUsesOnlyTheFormsBits : Prop :=
  ∀ id : Word32,
    pack id false = packStd (BitVec.ofNat 11 (id.toNat % 2 ^ 11)) ∧
    pack id true = packExt (BitVec.ofNat 29 (id.toNat % 2 ^ 29)) ∧
    ∀ other : Word32,
      (id.toNat % 2 ^ 11 = other.toNat % 2 ^ 11 → pack id false = pack other false) ∧
      (id.toNat % 2 ^ 29 = other.toNat % 2 ^ 29 → pack id true = pack other true)

/-- R80: `unpack` as numbers. -/
def Obligations.UnpackValue : Prop :=
  ∀ p : Image,
    (p.sidl.getLsbD 3 = true → (unpack p).2 = true ∧
      (unpack p).1.toNat = (p.sidh.toNat * 8 + p.sidl.toNat / 32) * 2 ^ 18 + p.sidl.toNat % 4 * 2 ^ 16
        + p.eid8.toNat * 2 ^ 8 + p.eid0.toNat) ∧
    (p.sidl.getLsbD 3 = false → (unpack p).2 = false ∧ (unpack p).1.toNat = p.sidh.toNat * 8 + p.sidl.toNat / 32)

/-- R85: the round-trip law, for in-range identifiers and, cut to the form, for every 32-bit one. -/
def Obligations.UnpackPackRoundTrip : Prop :=
  (∀ id : Word32, id.toNat ≤ 0x7FF → unpack (pack id false) = (id, false)) ∧
  (∀ id : Word32, id.toNat ≤ 0x1FFFFFFF → unpack (pack id true) = (id, true)) ∧
  ∀ (id : Word32) (x : Bool), unpack (pack id x) = (id &&& (if x then 0x1FFFFFFF else 0x7FF), x)

/-- R86: which images are canonical, and what `pack` after `unpack` makes of the others. -/
def Obligations.CanonicalImages : Prop :=
  ∀ p : Image,
    (pack (unpack p).1 (unpack p).2 = p ↔
      (p.sidl &&& 0x1F = 0 ∧ p.eid8 = 0 ∧ p.eid0 = 0) ∨ p.sidl &&& 0x1C = 0x08) ∧
    (p.sidl.getLsbD 3 = false → pack (unpack p).1 (unpack p).2 = ⟨p.sidh, p.sidl &&& 0xE0, 0, 0⟩) ∧
    (p.sidl.getLsbD 3 = true → pack (unpack p).1 (unpack p).2 = ⟨p.sidh, p.sidl &&& 0xEB, p.eid8, p.eid0⟩)

/-- R89: the image bits whose value does not affect `unpack`. -/
def Obligations.UnpackIgnoresTheNamedBits : Prop :=
  ∀ p q : Image, p.sidh = q.sidh → p.sidl.getLsbD 3 = q.sidl.getLsbD 3 →
    (p.sidl.getLsbD 3 = false → p.sidl &&& 0xE0 = q.sidl &&& 0xE0 → unpack p = unpack q) ∧
    (p.sidl.getLsbD 3 = true → p.sidl &&& 0xE3 = q.sidl &&& 0xE3 → p.eid8 = q.eid8 → p.eid0 = q.eid0 →
      unpack p = unpack q)

/-- R88: the two forms never coincide, `pack` is injective on the in-range identifiers of a form, and a standard identifier `s`
shares SIDH and SIDL[7:5] with the extended identifier `s << 18`, the two images differing only in EXIDE. -/
def Obligations.StandardAndExtendedImagesNeverCoincide : Prop :=
  (∀ a : Word32, (pack a false).sidl.getLsbD 3 = false ∧ (pack a true).sidl.getLsbD 3 = true) ∧
  (∀ a b : Word32, pack a false ≠ pack b true) ∧
  (∀ a b : Word32, a.toNat ≤ 0x7FF → b.toNat ≤ 0x7FF → pack a false = pack b false → a = b) ∧
  (∀ a b : Word32, a.toNat ≤ 0x1FFFFFFF → b.toNat ≤ 0x1FFFFFFF → pack a true = pack b true → a = b) ∧
  (∀ a : Word32, a.toNat ≤ 0x7FF →
    pack (a <<< 18) true = { pack a false with sidl := (pack a false).sidl ||| 0x08 }) ∧
  pack 0x123 false = ⟨0x24, 0x60, 0x00, 0x00⟩ ∧ pack 0x048C0000 true = ⟨0x24, 0x68, 0x00, 0x00⟩
end

