-- ==== Sys2Proof/Laws/Codec.lean ====
section
/-! SUPPORT. What `IDR` reads as: the two layouts of R18 and R19, the form and all that `unpack` reads as they were written, and an
image that `pack` made as it is. -/

namespace Sys2Proof
namespace Machine

/-- What `IDR` reads as after an image was written to it: one of the two layouts. -/
theorem wiredIdr_idrOf (p : Image) :
    (exide p.sidl = false ∧ wiredIdr (idrOf p) = idrOf ⟨p.sidh, p.sidl &&& 0xE0, 0x00, 0x00⟩) ∨
    (exide p.sidl = true ∧ wiredIdr (idrOf p) = idrOf ⟨p.sidh, p.sidl &&& 0xEB, p.eid8, p.eid0⟩) := by
  cases h : exide p.sidl <;> simp [wiredIdr, idrOf, h]

@[simp] theorem wiredIdr_sidh (r : Idr) : (wiredIdr r).sidh = r.sidh := by
  unfold wiredIdr; split
  · rfl
  · split <;> rfl

theorem exide_and_std (b : Byte) : exide (b &&& 0xE0) = false := by revert b; decide
theorem exide_and_ext (b : Byte) : exide (b &&& 0xEB) = exide b := by revert b; decide

/-- The form reads as it was written. -/
@[simp] theorem wiredIdr_exide (r : Idr) : (wiredIdr r).sidl.map exide = r.sidl.map exide := by
  unfold wiredIdr; split
  · rfl
  · next b hb =>
    cases h : exide b <;> simp only [hb, h, if_true, Bool.false_eq_true, if_false, Option.map_some]
    · rw [exide_and_std]
    · rw [exide_and_ext, h]

/-! What the host reads of each element. -/

@[simp] theorem resultReg_idr0 (s : State) : resultReg s (.idr 0) = (wiredIdr s.idr).sidh.map (·.setWidth 32) := rfl
@[simp] theorem resultReg_idr1 (s : State) : resultReg s (.idr 1) = (wiredIdr s.idr).sidl.map (·.setWidth 32) := rfl
@[simp] theorem resultReg_idr2 (s : State) : resultReg s (.idr 2) = (wiredIdr s.idr).eid8.map (·.setWidth 32) := rfl
@[simp] theorem resultReg_idr3 (s : State) : resultReg s (.idr 3) = (wiredIdr s.idr).eid0.map (·.setWidth 32) := rfl

/-- An element reads as no value exactly when it holds none (R22). -/
theorem idrAt_wiredIdr_eq_none (r : Idr) (i : Fin 4) : idrAt (wiredIdr r) i = none ↔ idrAt r i = none := by
  unfold wiredIdr; split
  · rfl
  · next b hb => unfold idrAt; split <;> split <;> simp [hb]

theorem base_and_std (b : Byte) : (b &&& 0xE0).extractLsb' 5 3 = b.extractLsb' 5 3 := by revert b; decide
theorem base_and_ext (b : Byte) : (b &&& 0xEB).extractLsb' 5 3 = b.extractLsb' 5 3 := by revert b; decide
theorem low_and_ext (b : Byte) : (b &&& 0xEB).extractLsb' 0 2 = b.extractLsb' 0 2 := by revert b; decide

theorem idrOf_injective {p q : Image} (h : idrOf p = idrOf q) : p = q := by
  cases p; cases q; simpa [idrOf] using h

/-- `unpack` reads none of the hardwired bits (R89): an image and what `IDR` reads as unpack to the same. -/
theorem unpack_of_wiredIdr (p q : Image) (h : wiredIdr (idrOf p) = idrOf q) : unpack q = unpack p := by
  rcases wiredIdr_idrOf p with ⟨hx, e⟩ | ⟨hx, e⟩ <;> rw [idrOf_injective (h.symm.trans e)] <;> unfold unpack baseId
  · rw [exide_and_std, base_and_std, hx]
    simp only [Bool.false_eq_true, if_false]
  · rw [exide_and_ext, base_and_ext, low_and_ext]

/-- An image that `pack` made reads as it is (R18, R19). -/
@[simp] theorem wiredIdr_pack (id : Word32) (x : Bool) : wiredIdr (idrOf (pack id x)) = idrOf (pack id x) := by
  have h0 : ∀ a : BitVec 3, exide (a.setWidth 8 <<< 5) = false ∧ (a.setWidth 8 <<< 5) &&& (0xE0 : Byte) = a.setWidth 8 <<< 5 := by
    decide
  have h1 : ∀ (a : BitVec 3) (b : BitVec 2),
      exide ((a.setWidth 8 <<< 5) ||| ((1#8) <<< Config.exidePos) ||| b.setWidth 8) = true ∧
      ((a.setWidth 8 <<< 5) ||| ((1#8) <<< Config.exidePos) ||| b.setWidth 8) &&& (0xEB : Byte) =
        (a.setWidth 8 <<< 5) ||| ((1#8) <<< Config.exidePos) ||| b.setWidth 8 := by decide
  cases x <;> simp only [pack, packStd, packExt, wiredIdr, idrOf, h0, h1, if_true, Bool.false_eq_true, if_false, Option.map_some]

end Machine
end Sys2Proof
end

