-- ==== Sys2Proof/Laws/Memory.lean ====
section
/-! SUPPORT. The laws of the peer register space: a read after a write to the same address gives the byte, every other address
is left alone, and every operation keeps the canonical form. -/

namespace Sys2Proof
namespace Machine

@[simp] theorem Memory.read_nil (a : Nat) : Memory.read [] a = none := rfl

theorem Memory.read_cons (k : Nat) (v : Byte) (m : Memory) (a : Nat) :
    Memory.read ((k, v) :: m) a = if k = a then some v else Memory.read m a := rfl

@[simp] theorem Memory.read_write_same (m : Memory) (a : Nat) (v : Byte) : (m.write a v).read a = some v := by
  induction m with
  | nil => simp [Memory.write, Memory.read_cons]
  | cons c m ih =>
    obtain ⟨k, w⟩ := c
    simp only [Memory.write]
    split
    · simp [Memory.read_cons]
    · split
      · simp [Memory.read_cons]
      · simp [Memory.read_cons, ih, Ne.symm ‹¬a = k›]

theorem Memory.read_write_other (m : Memory) (a b : Nat) (v : Byte) (h : b ≠ a) : (m.write a v).read b = m.read b := by
  induction m with
  | nil => simp [Memory.write, Memory.read_cons, h.symm]
  | cons c m ih =>
    obtain ⟨k, w⟩ := c
    simp only [Memory.write]
    split
    · simp [Memory.read_cons, h.symm]
    · split
      · subst_vars; simp [Memory.read_cons, h.symm]
      · simp [Memory.read_cons, ih]

/-- The lower bound of the canonical form, as an inequality. -/
def Memory.above (lo : Option Nat) (k : Nat) : Prop := ∀ l, lo = some l → l < k

theorem Memory.wfFrom_cons (lo : Option Nat) (k : Nat) (v : Byte) (m : Memory) :
    Memory.wfFrom lo ((k, v) :: m) = true ↔ Memory.above lo k ∧ k < 256 ∧ Memory.wfFrom (some k) m = true := by
  cases lo <;> simp [Memory.wfFrom, Memory.above, and_assoc]

theorem Memory.wfFrom_write (m : Memory) (lo : Option Nat) (a : Nat) (v : Byte) (hlo : Memory.above lo a) (ha : a < 256)
    (h : Memory.wfFrom lo m = true) : Memory.wfFrom lo (m.write a v) = true := by
  induction m generalizing lo with
  | nil => exact (Memory.wfFrom_cons lo a v []).2 ⟨hlo, ha, rfl⟩
  | cons c m ih =>
    obtain ⟨k, w⟩ := c
    obtain ⟨h1, h2, h3⟩ := (Memory.wfFrom_cons lo k w m).1 h
    simp only [Memory.write]
    split
    · have hk : Memory.above (some a) k := by intro l hl; cases hl; assumption
      exact (Memory.wfFrom_cons _ _ _ _).2 ⟨hlo, ha, (Memory.wfFrom_cons _ _ _ _).2 ⟨hk, h2, h3⟩⟩
    · split
      · subst_vars; exact (Memory.wfFrom_cons _ _ _ _).2 ⟨hlo, ha, h3⟩
      · have hk : Memory.above (some k) a := by intro l hl; cases hl; omega
        exact (Memory.wfFrom_cons _ _ _ _).2 ⟨h1, h2, ih (some k) hk h3⟩

/-- A write keeps the canonical form. -/
theorem Memory.wf_write (m : Memory) (a : Byte) (v : Byte) (h : m.wf = true) : (m.write a.toNat v).wf = true :=
  Memory.wfFrom_write m none a.toNat v (by simp [Memory.above]) a.isLt h

theorem Memory.wfFrom_map_range' (f : Byte → Byte) (n : Nat) :
    ∀ (b : Nat) (lo : Option Nat), Memory.above lo b → b + n ≤ 256 →
      Memory.wfFrom lo ((List.range' b n).map (fun a => (a, f (BitVec.ofNat 8 a)))) = true := by
  induction n with
  | zero => intro b lo _ _; rfl
  | succ n ih =>
    intro b lo hlo hb
    rw [List.range'_succ, List.map_cons, Memory.wfFrom_cons]
    exact ⟨hlo, by omega, ih (b + 1) (some b) (by intro l hl; cases hl; omega) (by omega)⟩

/-- The memory that lists every location is in canonical form. -/
theorem Memory.wf_fill (f : Byte → Byte) : (Memory.fill f).wf = true := by
  simp only [Memory.wf, Memory.fill, List.range_eq_range']
  exact Memory.wfFrom_map_range' f 256 0 none (by simp [Memory.above]) (by omega)

theorem Memory.read_map_range' (f : Byte → Byte) (n : Nat) :
    ∀ (b a : Nat), b ≤ a → a < b + n →
      Memory.read ((List.range' b n).map (fun a => (a, f (BitVec.ofNat 8 a)))) a = some (f (BitVec.ofNat 8 a)) := by
  induction n with
  | zero => intro b a h1 h2; omega
  | succ n ih =>
    intro b a h1 h2
    rw [List.range'_succ, List.map_cons, Memory.read_cons]
    split
    · subst_vars; rfl
    · exact ih (b + 1) a (by omega) (by omega)

/-- Each location of a filled memory holds what the function gives its address. -/
theorem Memory.read_fill (f : Byte → Byte) (a : Byte) : (Memory.fill f).read a.toNat = some (f a) := by
  simp only [Memory.fill, List.range_eq_range']
  rw [Memory.read_map_range' f 256 0 a.toNat (by omega) (by have := a.isLt; omega)]
  simp

/-- A burst write keeps the canonical form. -/
theorem wf_writeBurst (p : PeerKind) (m : Memory) (a : Byte) (vs : List Byte) (h : m.wf = true) :
    (writeBurst p m a vs).wf = true := by
  induction vs generalizing m a with
  | nil => exact h
  | cons v vs ih => exact ih _ _ (Memory.wf_write m a v h)

/-- Every frame keeps the canonical form of the peer register space. -/
theorem wf_peerEffect (s : State) (f : BusFrame) (h : s.preg.wf = true) : (peerEffect s f).wf = true := by
  cases f with
  | reset => exact Memory.wf_fill _
  | read a n => exact h
  | write a vs => exact wf_writeBurst _ _ _ _ h
  | bitmod a m v => exact Memory.wf_write _ _ _ h
  | rdstatus => exact h

end Machine
end Sys2Proof
end

