-- ==== Sys2Proof/Laws/State.lean ====
section
/-! SUPPORT. What each register update leaves in each field: one lemma for each field and update, true by `rfl`, so that no
later proof unfolds a record update. -/

namespace Sys2Proof
namespace Machine

@[simp] theorem State.withPhase_phase (s : State) (p : Phase) : (s.withPhase p).phase = p := rfl
@[simp] theorem State.withPhase_err (s : State) (p : Phase) : (s.withPhase p).err = s.err := rfl
@[simp] theorem State.withPhase_rdata (s : State) (p : Phase) : (s.withPhase p).rdata = s.rdata := rfl
@[simp] theorem State.withPhase_stat (s : State) (p : Phase) : (s.withPhase p).stat = s.stat := rfl
@[simp] theorem State.withPhase_idr (s : State) (p : Phase) : (s.withPhase p).idr = s.idr := rfl
@[simp] theorem State.withPhase_idout (s : State) (p : Phase) : (s.withPhase p).idout = s.idout := rfl
@[simp] theorem State.withPhase_extout (s : State) (p : Phase) : (s.withPhase p).extout = s.extout := rfl
@[simp] theorem State.withPhase_txlog (s : State) (p : Phase) : (s.withPhase p).txlog = s.txlog := rfl
@[simp] theorem State.withPhase_preg (s : State) (p : Phase) : (s.withPhase p).preg = s.preg := rfl
@[simp] theorem State.withPhase_peer (s : State) (p : Phase) : (s.withPhase p).peer = s.peer := rfl
@[simp] theorem State.withPhase_draws (s : State) (p : Phase) : (s.withPhase p).draws = s.draws := rfl
@[simp] theorem State.withPhase_agenda (s : State) (p : Phase) : (s.withPhase p).agenda = s.agenda := rfl
@[simp] theorem State.withPhase_hostLog (s : State) (p : Phase) : (s.withPhase p).hostLog = s.hostLog := rfl

@[simp] theorem State.withErr_phase (s : State) (e : BitVec 2) : (s.withErr e).phase = s.phase := rfl
@[simp] theorem State.withErr_err (s : State) (e : BitVec 2) : (s.withErr e).err = e := rfl
@[simp] theorem State.withErr_rdata (s : State) (e : BitVec 2) : (s.withErr e).rdata = s.rdata := rfl
@[simp] theorem State.withErr_stat (s : State) (e : BitVec 2) : (s.withErr e).stat = s.stat := rfl
@[simp] theorem State.withErr_idr (s : State) (e : BitVec 2) : (s.withErr e).idr = s.idr := rfl
@[simp] theorem State.withErr_idout (s : State) (e : BitVec 2) : (s.withErr e).idout = s.idout := rfl
@[simp] theorem State.withErr_extout (s : State) (e : BitVec 2) : (s.withErr e).extout = s.extout := rfl
@[simp] theorem State.withErr_txlog (s : State) (e : BitVec 2) : (s.withErr e).txlog = s.txlog := rfl
@[simp] theorem State.withErr_preg (s : State) (e : BitVec 2) : (s.withErr e).preg = s.preg := rfl
@[simp] theorem State.withErr_peer (s : State) (e : BitVec 2) : (s.withErr e).peer = s.peer := rfl
@[simp] theorem State.withErr_draws (s : State) (e : BitVec 2) : (s.withErr e).draws = s.draws := rfl
@[simp] theorem State.withErr_agenda (s : State) (e : BitVec 2) : (s.withErr e).agenda = s.agenda := rfl
@[simp] theorem State.withErr_hostLog (s : State) (e : BitVec 2) : (s.withErr e).hostLog = s.hostLog := rfl

@[simp] theorem State.withRdata_phase (s : State) (r : Vector (Option Byte) Config.maxBurst) : (s.withRdata r).phase = s.phase := rfl
@[simp] theorem State.withRdata_err (s : State) (r : Vector (Option Byte) Config.maxBurst) : (s.withRdata r).err = s.err := rfl
@[simp] theorem State.withRdata_rdata (s : State) (r : Vector (Option Byte) Config.maxBurst) : (s.withRdata r).rdata = r := rfl
@[simp] theorem State.withRdata_stat (s : State) (r : Vector (Option Byte) Config.maxBurst) : (s.withRdata r).stat = s.stat := rfl
@[simp] theorem State.withRdata_idr (s : State) (r : Vector (Option Byte) Config.maxBurst) : (s.withRdata r).idr = s.idr := rfl
@[simp] theorem State.withRdata_idout (s : State) (r : Vector (Option Byte) Config.maxBurst) : (s.withRdata r).idout = s.idout := rfl
@[simp] theorem State.withRdata_extout (s : State) (r : Vector (Option Byte) Config.maxBurst) : (s.withRdata r).extout = s.extout := rfl
@[simp] theorem State.withRdata_txlog (s : State) (r : Vector (Option Byte) Config.maxBurst) : (s.withRdata r).txlog = s.txlog := rfl
@[simp] theorem State.withRdata_preg (s : State) (r : Vector (Option Byte) Config.maxBurst) : (s.withRdata r).preg = s.preg := rfl
@[simp] theorem State.withRdata_peer (s : State) (r : Vector (Option Byte) Config.maxBurst) : (s.withRdata r).peer = s.peer := rfl
@[simp] theorem State.withRdata_draws (s : State) (r : Vector (Option Byte) Config.maxBurst) : (s.withRdata r).draws = s.draws := rfl
@[simp] theorem State.withRdata_agenda (s : State) (r : Vector (Option Byte) Config.maxBurst) : (s.withRdata r).agenda = s.agenda := rfl
@[simp] theorem State.withRdata_hostLog (s : State) (r : Vector (Option Byte) Config.maxBurst) : (s.withRdata r).hostLog = s.hostLog := rfl

@[simp] theorem State.withStat_phase (s : State) (b : Byte) : (s.withStat b).phase = s.phase := rfl
@[simp] theorem State.withStat_err (s : State) (b : Byte) : (s.withStat b).err = s.err := rfl
@[simp] theorem State.withStat_rdata (s : State) (b : Byte) : (s.withStat b).rdata = s.rdata := rfl
@[simp] theorem State.withStat_stat (s : State) (b : Byte) : (s.withStat b).stat = some b := rfl
@[simp] theorem State.withStat_idr (s : State) (b : Byte) : (s.withStat b).idr = s.idr := rfl
@[simp] theorem State.withStat_idout (s : State) (b : Byte) : (s.withStat b).idout = s.idout := rfl
@[simp] theorem State.withStat_extout (s : State) (b : Byte) : (s.withStat b).extout = s.extout := rfl
@[simp] theorem State.withStat_txlog (s : State) (b : Byte) : (s.withStat b).txlog = s.txlog := rfl
@[simp] theorem State.withStat_preg (s : State) (b : Byte) : (s.withStat b).preg = s.preg := rfl
@[simp] theorem State.withStat_peer (s : State) (b : Byte) : (s.withStat b).peer = s.peer := rfl
@[simp] theorem State.withStat_draws (s : State) (b : Byte) : (s.withStat b).draws = s.draws := rfl
@[simp] theorem State.withStat_agenda (s : State) (b : Byte) : (s.withStat b).agenda = s.agenda := rfl
@[simp] theorem State.withStat_hostLog (s : State) (b : Byte) : (s.withStat b).hostLog = s.hostLog := rfl

@[simp] theorem State.withIdr_phase (s : State) (p : Image) : (s.withIdr p).phase = s.phase := rfl
@[simp] theorem State.withIdr_err (s : State) (p : Image) : (s.withIdr p).err = s.err := rfl
@[simp] theorem State.withIdr_rdata (s : State) (p : Image) : (s.withIdr p).rdata = s.rdata := rfl
@[simp] theorem State.withIdr_stat (s : State) (p : Image) : (s.withIdr p).stat = s.stat := rfl
@[simp] theorem State.withIdr_idr (s : State) (p : Image) : (s.withIdr p).idr = idrOf p := rfl
@[simp] theorem State.withIdr_idout (s : State) (p : Image) : (s.withIdr p).idout = s.idout := rfl
@[simp] theorem State.withIdr_extout (s : State) (p : Image) : (s.withIdr p).extout = s.extout := rfl
@[simp] theorem State.withIdr_txlog (s : State) (p : Image) : (s.withIdr p).txlog = s.txlog := rfl
@[simp] theorem State.withIdr_preg (s : State) (p : Image) : (s.withIdr p).preg = s.preg := rfl
@[simp] theorem State.withIdr_peer (s : State) (p : Image) : (s.withIdr p).peer = s.peer := rfl
@[simp] theorem State.withIdr_draws (s : State) (p : Image) : (s.withIdr p).draws = s.draws := rfl
@[simp] theorem State.withIdr_agenda (s : State) (p : Image) : (s.withIdr p).agenda = s.agenda := rfl
@[simp] theorem State.withIdr_hostLog (s : State) (p : Image) : (s.withIdr p).hostLog = s.hostLog := rfl

@[simp] theorem State.withIdOut_phase (s : State) (r : Word32 × Bool) : (s.withIdOut r).phase = s.phase := rfl
@[simp] theorem State.withIdOut_err (s : State) (r : Word32 × Bool) : (s.withIdOut r).err = s.err := rfl
@[simp] theorem State.withIdOut_rdata (s : State) (r : Word32 × Bool) : (s.withIdOut r).rdata = s.rdata := rfl
@[simp] theorem State.withIdOut_stat (s : State) (r : Word32 × Bool) : (s.withIdOut r).stat = s.stat := rfl
@[simp] theorem State.withIdOut_idr (s : State) (r : Word32 × Bool) : (s.withIdOut r).idr = s.idr := rfl
@[simp] theorem State.withIdOut_idout (s : State) (r : Word32 × Bool) : (s.withIdOut r).idout = some r.1 := rfl
@[simp] theorem State.withIdOut_extout (s : State) (r : Word32 × Bool) : (s.withIdOut r).extout = some r.2 := rfl
@[simp] theorem State.withIdOut_txlog (s : State) (r : Word32 × Bool) : (s.withIdOut r).txlog = s.txlog := rfl
@[simp] theorem State.withIdOut_preg (s : State) (r : Word32 × Bool) : (s.withIdOut r).preg = s.preg := rfl
@[simp] theorem State.withIdOut_peer (s : State) (r : Word32 × Bool) : (s.withIdOut r).peer = s.peer := rfl
@[simp] theorem State.withIdOut_draws (s : State) (r : Word32 × Bool) : (s.withIdOut r).draws = s.draws := rfl
@[simp] theorem State.withIdOut_agenda (s : State) (r : Word32 × Bool) : (s.withIdOut r).agenda = s.agenda := rfl
@[simp] theorem State.withIdOut_hostLog (s : State) (r : Word32 × Bool) : (s.withIdOut r).hostLog = s.hostLog := rfl

@[simp] theorem State.withUnpacked_phase (s : State) (p : Image) : (s.withUnpacked p).phase = s.phase := rfl
@[simp] theorem State.withUnpacked_err (s : State) (p : Image) : (s.withUnpacked p).err = s.err := rfl
@[simp] theorem State.withUnpacked_rdata (s : State) (p : Image) : (s.withUnpacked p).rdata = s.rdata := rfl
@[simp] theorem State.withUnpacked_stat (s : State) (p : Image) : (s.withUnpacked p).stat = s.stat := rfl
@[simp] theorem State.withUnpacked_idr (s : State) (p : Image) : (s.withUnpacked p).idr = idrOf p := rfl
@[simp] theorem State.withUnpacked_idout (s : State) (p : Image) : (s.withUnpacked p).idout = some (unpack p).1 := rfl
@[simp] theorem State.withUnpacked_extout (s : State) (p : Image) : (s.withUnpacked p).extout = some (unpack p).2 := rfl
@[simp] theorem State.withUnpacked_txlog (s : State) (p : Image) : (s.withUnpacked p).txlog = s.txlog := rfl
@[simp] theorem State.withUnpacked_preg (s : State) (p : Image) : (s.withUnpacked p).preg = s.preg := rfl
@[simp] theorem State.withUnpacked_peer (s : State) (p : Image) : (s.withUnpacked p).peer = s.peer := rfl
@[simp] theorem State.withUnpacked_draws (s : State) (p : Image) : (s.withUnpacked p).draws = s.draws := rfl
@[simp] theorem State.withUnpacked_agenda (s : State) (p : Image) : (s.withUnpacked p).agenda = s.agenda := rfl
@[simp] theorem State.withUnpacked_hostLog (s : State) (p : Image) : (s.withUnpacked p).hostLog = s.hostLog := rfl

@[simp] theorem State.withTxlog_phase (s : State) (l : List Xfer) : (s.withTxlog l).phase = s.phase := rfl
@[simp] theorem State.withTxlog_err (s : State) (l : List Xfer) : (s.withTxlog l).err = s.err := rfl
@[simp] theorem State.withTxlog_rdata (s : State) (l : List Xfer) : (s.withTxlog l).rdata = s.rdata := rfl
@[simp] theorem State.withTxlog_stat (s : State) (l : List Xfer) : (s.withTxlog l).stat = s.stat := rfl
@[simp] theorem State.withTxlog_idr (s : State) (l : List Xfer) : (s.withTxlog l).idr = s.idr := rfl
@[simp] theorem State.withTxlog_idout (s : State) (l : List Xfer) : (s.withTxlog l).idout = s.idout := rfl
@[simp] theorem State.withTxlog_extout (s : State) (l : List Xfer) : (s.withTxlog l).extout = s.extout := rfl
@[simp] theorem State.withTxlog_txlog (s : State) (l : List Xfer) : (s.withTxlog l).txlog = l := rfl
@[simp] theorem State.withTxlog_preg (s : State) (l : List Xfer) : (s.withTxlog l).preg = s.preg := rfl
@[simp] theorem State.withTxlog_peer (s : State) (l : List Xfer) : (s.withTxlog l).peer = s.peer := rfl
@[simp] theorem State.withTxlog_draws (s : State) (l : List Xfer) : (s.withTxlog l).draws = s.draws := rfl
@[simp] theorem State.withTxlog_agenda (s : State) (l : List Xfer) : (s.withTxlog l).agenda = s.agenda := rfl
@[simp] theorem State.withTxlog_hostLog (s : State) (l : List Xfer) : (s.withTxlog l).hostLog = s.hostLog := rfl

@[simp] theorem State.withPreg_phase (s : State) (m : Memory) : (s.withPreg m).phase = s.phase := rfl
@[simp] theorem State.withPreg_err (s : State) (m : Memory) : (s.withPreg m).err = s.err := rfl
@[simp] theorem State.withPreg_rdata (s : State) (m : Memory) : (s.withPreg m).rdata = s.rdata := rfl
@[simp] theorem State.withPreg_stat (s : State) (m : Memory) : (s.withPreg m).stat = s.stat := rfl
@[simp] theorem State.withPreg_idr (s : State) (m : Memory) : (s.withPreg m).idr = s.idr := rfl
@[simp] theorem State.withPreg_idout (s : State) (m : Memory) : (s.withPreg m).idout = s.idout := rfl
@[simp] theorem State.withPreg_extout (s : State) (m : Memory) : (s.withPreg m).extout = s.extout := rfl
@[simp] theorem State.withPreg_txlog (s : State) (m : Memory) : (s.withPreg m).txlog = s.txlog := rfl
@[simp] theorem State.withPreg_preg (s : State) (m : Memory) : (s.withPreg m).preg = m := rfl
@[simp] theorem State.withPreg_peer (s : State) (m : Memory) : (s.withPreg m).peer = s.peer := rfl
@[simp] theorem State.withPreg_draws (s : State) (m : Memory) : (s.withPreg m).draws = s.draws := rfl
@[simp] theorem State.withPreg_agenda (s : State) (m : Memory) : (s.withPreg m).agenda = s.agenda := rfl
@[simp] theorem State.withPreg_hostLog (s : State) (m : Memory) : (s.withPreg m).hostLog = s.hostLog := rfl

@[simp] theorem State.withDraws_phase (s : State) (n : Nat) : (s.withDraws n).phase = s.phase := rfl
@[simp] theorem State.withDraws_err (s : State) (n : Nat) : (s.withDraws n).err = s.err := rfl
@[simp] theorem State.withDraws_rdata (s : State) (n : Nat) : (s.withDraws n).rdata = s.rdata := rfl
@[simp] theorem State.withDraws_stat (s : State) (n : Nat) : (s.withDraws n).stat = s.stat := rfl
@[simp] theorem State.withDraws_idr (s : State) (n : Nat) : (s.withDraws n).idr = s.idr := rfl
@[simp] theorem State.withDraws_idout (s : State) (n : Nat) : (s.withDraws n).idout = s.idout := rfl
@[simp] theorem State.withDraws_extout (s : State) (n : Nat) : (s.withDraws n).extout = s.extout := rfl
@[simp] theorem State.withDraws_txlog (s : State) (n : Nat) : (s.withDraws n).txlog = s.txlog := rfl
@[simp] theorem State.withDraws_preg (s : State) (n : Nat) : (s.withDraws n).preg = s.preg := rfl
@[simp] theorem State.withDraws_peer (s : State) (n : Nat) : (s.withDraws n).peer = s.peer := rfl
@[simp] theorem State.withDraws_draws (s : State) (n : Nat) : (s.withDraws n).draws = n := rfl
@[simp] theorem State.withDraws_agenda (s : State) (n : Nat) : (s.withDraws n).agenda = s.agenda := rfl
@[simp] theorem State.withDraws_hostLog (s : State) (n : Nat) : (s.withDraws n).hostLog = s.hostLog := rfl

@[simp] theorem State.withAgenda_phase (s : State) (l : List Event) : (s.withAgenda l).phase = s.phase := rfl
@[simp] theorem State.withAgenda_err (s : State) (l : List Event) : (s.withAgenda l).err = s.err := rfl
@[simp] theorem State.withAgenda_rdata (s : State) (l : List Event) : (s.withAgenda l).rdata = s.rdata := rfl
@[simp] theorem State.withAgenda_stat (s : State) (l : List Event) : (s.withAgenda l).stat = s.stat := rfl
@[simp] theorem State.withAgenda_idr (s : State) (l : List Event) : (s.withAgenda l).idr = s.idr := rfl
@[simp] theorem State.withAgenda_idout (s : State) (l : List Event) : (s.withAgenda l).idout = s.idout := rfl
@[simp] theorem State.withAgenda_extout (s : State) (l : List Event) : (s.withAgenda l).extout = s.extout := rfl
@[simp] theorem State.withAgenda_txlog (s : State) (l : List Event) : (s.withAgenda l).txlog = s.txlog := rfl
@[simp] theorem State.withAgenda_preg (s : State) (l : List Event) : (s.withAgenda l).preg = s.preg := rfl
@[simp] theorem State.withAgenda_peer (s : State) (l : List Event) : (s.withAgenda l).peer = s.peer := rfl
@[simp] theorem State.withAgenda_draws (s : State) (l : List Event) : (s.withAgenda l).draws = s.draws := rfl
@[simp] theorem State.withAgenda_agenda (s : State) (l : List Event) : (s.withAgenda l).agenda = l := rfl
@[simp] theorem State.withAgenda_hostLog (s : State) (l : List Event) : (s.withAgenda l).hostLog = s.hostLog := rfl

@[simp] theorem State.withHostLog_phase (s : State) (l : List HostReading) : (s.withHostLog l).phase = s.phase := rfl
@[simp] theorem State.withHostLog_err (s : State) (l : List HostReading) : (s.withHostLog l).err = s.err := rfl
@[simp] theorem State.withHostLog_rdata (s : State) (l : List HostReading) : (s.withHostLog l).rdata = s.rdata := rfl
@[simp] theorem State.withHostLog_stat (s : State) (l : List HostReading) : (s.withHostLog l).stat = s.stat := rfl
@[simp] theorem State.withHostLog_idr (s : State) (l : List HostReading) : (s.withHostLog l).idr = s.idr := rfl
@[simp] theorem State.withHostLog_idout (s : State) (l : List HostReading) : (s.withHostLog l).idout = s.idout := rfl
@[simp] theorem State.withHostLog_extout (s : State) (l : List HostReading) : (s.withHostLog l).extout = s.extout := rfl
@[simp] theorem State.withHostLog_txlog (s : State) (l : List HostReading) : (s.withHostLog l).txlog = s.txlog := rfl
@[simp] theorem State.withHostLog_preg (s : State) (l : List HostReading) : (s.withHostLog l).preg = s.preg := rfl
@[simp] theorem State.withHostLog_peer (s : State) (l : List HostReading) : (s.withHostLog l).peer = s.peer := rfl
@[simp] theorem State.withHostLog_draws (s : State) (l : List HostReading) : (s.withHostLog l).draws = s.draws := rfl
@[simp] theorem State.withHostLog_agenda (s : State) (l : List HostReading) : (s.withHostLog l).agenda = s.agenda := rfl
@[simp] theorem State.withHostLog_hostLog (s : State) (l : List HostReading) : (s.withHostLog l).hostLog = l := rfl

/-- Two states with the same fields are the same state. -/
theorem State.eq_of_fields (s t : State) (h1 : s.phase = t.phase) (h2 : s.err = t.err) (h3 : s.rdata = t.rdata)
    (h4 : s.stat = t.stat) (h5 : s.idr = t.idr) (h6 : s.idout = t.idout) (h7 : s.extout = t.extout)
    (h8 : s.txlog = t.txlog) (h9 : s.preg = t.preg) (h10 : s.peer = t.peer) (h11 : s.draws = t.draws)
    (h12 : s.agenda = t.agenda) (h13 : s.hostLog = t.hostLog) : s = t := by
  cases s; cases t; simp_all

end Machine
end Sys2Proof
end

