-- ==== Sys2Proof/Laws/Ops.lean ====
section
/-! SUPPORT. What the shared operations do, said once: the transaction primitive field by field, the length of its reply, the
acceptance of a command, and the burst's addresses. -/

namespace Sys2Proof
namespace Machine

@[simp] theorem noiseFrom_length (s : State) (k n : Nat) : (noiseFrom s k n).length = n := by
  induction n generalizing k with
  | zero => rfl
  | succ n ih => simp [noiseFrom, ih]

@[simp] theorem readBurst_length (s : State) (k : Nat) (a : Byte) (n : Nat) : (readBurst s k a n).length = n := by
  induction n generalizing k a with
  | zero => rfl
  | succ n ih => simp [readBurst, ih]

/-- `len(miso) = len(mosi)` (R9). -/
@[simp] theorem peerReply_length (s : State) (f : BusFrame) : (peerReply s f).length = (encodeFrame f).length := by
  cases f <;> simp [peerReply, encodeFrame]
  omega

/-- The unspecified bytes depend on the kind of peer and the count of draws only. -/
theorem noiseFrom_congr (s t : State) (hp : t.peer = s.peer) (hd : t.draws = s.draws) (k n : Nat) :
    noiseFrom t k n = noiseFrom s k n := by
  induction n generalizing k with
  | zero => rfl
  | succ n ih => simp only [noiseFrom, noise, hp, hd] at ih ⊢; rw [ih]

/-- A burst read depends on the kind of peer and the count of draws, and for the reference peer on its registers. -/
theorem readBurst_congr (s t : State) (hp : t.peer = s.peer) (hd : t.draws = s.draws)
    (hm : s.peer = .volatile ∨ t.preg = s.preg) (k : Nat) (a : Byte) (n : Nat) :
    readBurst t k a n = readBurst s k a n := by
  have hb : ∀ k a, memRead t k a = memRead s k a := by
    intro k a
    rcases hm with hv | hm
    · simp [memRead, hp, hd, hv]
    · simp [memRead, hp, hd, hm]
  induction n generalizing k a with
  | zero => rfl
  | succ n ih => simp only [readBurst, hb, hp, ih]

/-- So does the whole reply of a frame. -/
theorem peerReply_congr (s t : State) (hp : t.peer = s.peer) (hd : t.draws = s.draws)
    (hm : s.peer = .volatile ∨ t.preg = s.preg) (f : BusFrame) : peerReply t f = peerReply s f := by
  have hn := noiseFrom_congr s t hp hd
  cases f with
  | read a n => simp [peerReply, hn, readBurst_congr s t hp hd hm]
  | rdstatus => simp [peerReply, noise, statusByte, hp, hd]
  | _ => simp [peerReply, hn]

theorem burstAddr_next (p : PeerKind) (a : Byte) (k : Nat) : burstAddr p (addrNext p a) k = burstAddr p a (k + 1) := by
  induction k with
  | zero => rfl
  | succ k ih => rw [burstAddr, ih]; rfl

/-- The k-th data byte of a burst read is the peer's byte of the k-th address, in slot k after the first (R30, R38). -/
theorem readBurst_getElem? (s : State) (j : Nat) (a : Byte) (n k : Nat) (h : k < n) :
    (readBurst s j a n)[k]? = some (memRead s (j + k) (burstAddr s.peer a k)) := by
  induction n generalizing j a k with
  | zero => omega
  | succ n ih =>
    cases k with
    | zero => simp [readBurst, burstAddr]
    | succ k =>
      simp only [readBurst, List.getElem?_cons_succ]
      rw [ih (j + 1) (addrNext s.peer a) k (by omega), burstAddr_next]
      congr 2; omega

/-- Below 0xFF a burst counts up (R44). -/
theorem burstAddr_toNat (p : PeerKind) (a : Byte) (k : Nat) (h : a.toNat + k ≤ 0xFF) :
    (burstAddr p a k).toNat = a.toNat + k := by
  induction k with
  | zero => rfl
  | succ k ih =>
    have hk := ih (by omega)
    have hne : burstAddr p a k ≠ 0xFF#8 := by
      intro he; rw [he] at hk; simp at hk; omega
    simp only [burstAddr, addrNext, if_neg hne, BitVec.toNat_add, hk]
    simp; omega

/-- The reference peer's bursts wrap at the top (R52). -/
theorem burstAddr_reference (pstat a : Byte) (k : Nat) : burstAddr (.reference pstat) a k = a + BitVec.ofNat 8 k := by
  induction k with
  | zero => simp [burstAddr]
  | succ k ih =>
    have hk : a + BitVec.ofNat 8 (k + 1) = a + BitVec.ofNat 8 k + 1 := by
      apply BitVec.eq_of_toNat_eq; simp; omega
    rw [burstAddr, ih, hk, addrNext]
    split
    · rename_i h; rw [h]; rfl
    · rfl

/-- The reply of a transaction. -/
@[simp] theorem spiXfer_miso (f : BusFrame) (s : State) : (spiXfer f s).1 = peerReply s f := rfl

@[simp] theorem spiXfer_phase (f : BusFrame) (s : State) : (spiXfer f s).2.phase = s.phase := rfl
@[simp] theorem spiXfer_err (f : BusFrame) (s : State) : (spiXfer f s).2.err = s.err := rfl
@[simp] theorem spiXfer_rdata (f : BusFrame) (s : State) : (spiXfer f s).2.rdata = s.rdata := rfl
@[simp] theorem spiXfer_stat (f : BusFrame) (s : State) : (spiXfer f s).2.stat = s.stat := rfl
@[simp] theorem spiXfer_idr (f : BusFrame) (s : State) : (spiXfer f s).2.idr = s.idr := rfl
@[simp] theorem spiXfer_idout (f : BusFrame) (s : State) : (spiXfer f s).2.idout = s.idout := rfl
@[simp] theorem spiXfer_extout (f : BusFrame) (s : State) : (spiXfer f s).2.extout = s.extout := rfl
@[simp] theorem spiXfer_txlog (f : BusFrame) (s : State) :
    (spiXfer f s).2.txlog = s.txlog ++ [⟨encodeFrame f, peerReply s f⟩] := rfl
@[simp] theorem spiXfer_preg (f : BusFrame) (s : State) : (spiXfer f s).2.preg = peerEffect s f := rfl
@[simp] theorem spiXfer_peer (f : BusFrame) (s : State) : (spiXfer f s).2.peer = s.peer := rfl
@[simp] theorem spiXfer_draws (f : BusFrame) (s : State) : (spiXfer f s).2.draws = s.draws + drawCount f := rfl
@[simp] theorem spiXfer_agenda (f : BusFrame) (s : State) : (spiXfer f s).2.agenda = s.agenda := rfl
@[simp] theorem spiXfer_hostLog (f : BusFrame) (s : State) : (spiXfer f s).2.hostLog = s.hostLog := rfl

/-- What a held or accepted body can answer. -/
theorem held_cases (body : State → State) (s : State) :
    (s.phase = .settle ∧ held body s = .next s) ∨ (s.phase = .idle ∧ held body s = .next (body s)) := by
  unfold held; cases s.phase <;> simp

theorem held_idle (body : State → State) (s : State) (h : s.phase = .idle) : held body s = .next (body s) := by
  simp [held, h]

theorem held_settle (body : State → State) (s : State) (h : s.phase = .settle) : held body s = .next s := by
  simp [held, h]

theorem accept_idle (body : State → State) (s : State) (h : s.phase = .idle) :
    accept body s = .next ((body s).withErr errNone) := held_idle _ s h

theorem accept_settle (body : State → State) (s : State) (h : s.phase = .settle) : accept body s = .next s :=
  held_settle _ s h

/-- Storing bytes into `RDATA`: the elements stored hold the bytes, the others keep their values (R15). -/
theorem storeRdata_get (r : Vector (Option Byte) Config.maxBurst) (k : Nat) (bs : List Byte) (i : Nat)
    (hi : i < Config.maxBurst) :
    (storeRdata r k bs)[i] = if k ≤ i ∧ i < k + bs.length then bs[i - k]? else r[i] := by
  induction bs generalizing r k with
  | nil => simp [storeRdata]
  | cons b bs ih =>
    rw [storeRdata, ih]
    by_cases h1 : k + 1 ≤ i ∧ i < k + 1 + bs.length
    · rw [if_pos h1, if_pos ⟨by omega, by simp; omega⟩]
      obtain ⟨j, hj⟩ : ∃ j, i - k = j + 1 := ⟨i - k - 1, by omega⟩
      rw [hj, List.getElem?_cons_succ]; congr 1; omega
    · rw [if_neg h1, Vector.getElem_setIfInBounds]
      by_cases h2 : k = i
      · subst h2; simp
      · rw [if_neg h2, if_neg]; rintro ⟨h3, h4⟩; simp at h4; omega

end Machine
end Sys2Proof
end

