-- ==== Sys2Proof/Laws/Step.lean ====
section
/-! SUPPORT. What decoding can give and what one step can do, said once. -/

namespace Sys2Proof
namespace Machine

/-- The one form of a step, by what is next on the agenda and by `PHASE`. -/
theorem step_cases (s : State) :
    (s.agenda = [] ∧ step s = .next (settleElapsed s)) ∨
    (∃ p rest, s.agenda = .present p :: rest ∧ s.phase = .settle ∧ step s = .next (s.withPhase .idle)) ∨
    (∃ p rest, s.agenda = .present p :: rest ∧ s.phase = .idle ∧ step s = runPresented p (s.withAgenda rest)) ∨
    (∃ r rest, s.agenda = .hostRead r :: rest ∧ step s = hostRead r (s.withAgenda rest)) ∨
    (∃ rest, s.agenda = .settleElapsed :: rest ∧ step s = .next (settleElapsed (s.withAgenda rest))) ∨
    (∃ a v rest, s.agenda = .peerChange a v :: rest ∧ step s = .next (peerChange a v (s.withAgenda rest))) := by
  rcases hs : s.agenda with _ | ⟨e, rest⟩
  · left; simp [step, hs]
  · cases e with
    | present p =>
      cases hp : s.phase with
      | settle => right; left; exact ⟨p, rest, rfl, rfl, by simp [step, hs, hp, settleElapsed]⟩
      | idle => right; right; left; exact ⟨p, rest, rfl, rfl, by simp [step, hs, hp]⟩
    | hostRead r => right; right; right; left; exact ⟨r, rest, rfl, by simp [step, hs]⟩
    | settleElapsed => right; right; right; right; left; exact ⟨rest, rfl, by simp [step, hs]⟩
    | peerChange a v => right; right; right; right; right; exact ⟨a, v, rest, rfl, by simp [step, hs]⟩

/-- What a host read can answer. -/
theorem hostRead_cases (r : ResultReg) (s : State) :
    (∃ v, resultReg s r = some v ∧ hostRead r s = .next (s.withHostLog (s.hostLog ++ [⟨r, v⟩]))) ∨
    (resultReg s r = none ∧ r = .err ∧ hostRead r s = .fault .errReserved) ∨
    (resultReg s r = none ∧ r ≠ .err ∧ hostRead r s = .fault (.readOfNone r)) := by
  unfold hostRead
  cases h : resultReg s r with
  | some v => left; exact ⟨v, rfl, rfl⟩
  | none =>
    by_cases hr : r = .err
    · right; left; simp [hr]
    · right; right; simp [hr]

end Machine
end Sys2Proof
end

