-- ==== Sys2Proof/Laws/Exec.lean ====
section
/-! SUPPORT. Every instruction as one state change under one hold: `exec i` is `held (effect i)`. Later proofs split an
instruction's behaviour by `held_cases` and then look at `effect i` only. -/

namespace Sys2Proof
namespace Machine

/-- What an instruction does when nothing holds it. -/
def effect : Instr → State → State
  | .reset, s => (sendReset s).withErr errNone
  | .read a, s => (readBody a s).withErr errNone
  | .readn a n, s => (readnBody a n s).withErr errNone
  | .write a v, s => (spiXfer (.write a [v]) s).2.withErr errNone
  | .writen a vs, s => (spiXfer (.write a vs) s).2.withErr errNone
  | .bitmod a m v, s => (spiXfer (.bitmod a m v) s).2.withErr errNone
  | .rdstatus, s => (rdstatusBody s).withErr errNone
  | .pack id x, s => (s.withIdr (pack id x)).withErr errNone
  | .unpack p, s => (s.withUnpacked p).withErr errNone
  | .writeid a id x, s => (spiXfer (.write a (imageBytes (pack id x))) (s.withIdr (pack id x))).2.withErr errNone
  | .readid a, s => (readidBody a s).withErr errNone
  | .busReset, s => sendReset s
  | .busRead a n, s => (spiXfer (.read a n) s).2
  | .busWrite a vs, s => (spiXfer (.write a vs) s).2
  | .busBitmod a m v, s => (spiXfer (.bitmod a m v) s).2
  | .busRdstatus, s => (spiXfer .rdstatus s).2

theorem exec_eq_held (i : Instr) (s : State) : exec i s = held (effect i) s := by
  cases i <;> rfl

/-- An instruction that nothing holds completes, and this is its next state. -/
theorem exec_idle (i : Instr) (s : State) (h : s.phase = .idle) : exec i s = .next (effect i s) := by
  rw [exec_eq_held, held_idle _ _ h]

/-- What `exec` can answer: always a next state, the same one while the settle interval runs. -/
theorem exec_cases (i : Instr) (s : State) :
    (s.phase = .settle ∧ exec i s = .next s) ∨ (s.phase = .idle ∧ exec i s = .next (effect i s)) := by
  rw [exec_eq_held]; exact held_cases (effect i) s

/-- The frame an instruction sends (R59). -/
def frameOf : Instr → Option BusFrame
  | .reset => some .reset
  | .read a => some (.read a 1)
  | .readn a n => some (.read a n)
  | .write a v => some (.write a [v])
  | .writen a vs => some (.write a vs)
  | .bitmod a m v => some (.bitmod a m v)
  | .rdstatus => some .rdstatus
  | .pack _ _ => none
  | .unpack _ => none
  | .writeid a id x => some (.write a (imageBytes (pack id x)))
  | .readid a => some (.read a 4)
  | .busReset => some .reset
  | .busRead a n => some (.read a n)
  | .busWrite a vs => some (.write a vs)
  | .busBitmod a m v => some (.bitmod a m v)
  | .busRdstatus => some .rdstatus

/-- The frame of a well-formed instruction is well formed. -/
theorem frameOf_wf (i : Instr) (f : BusFrame) (hi : i.wf = true) (hf : frameOf i = some f) : f.wf = true := by
  cases i <;> simp only [frameOf, Option.some.injEq, reduceCtorEq] at hf <;> subst hf <;>
    simp [BusFrame.wf, Instr.wf, imageBytes] at hi ⊢ <;> omega

/-- `TXLOG` after an instruction: the instruction's frame, if it sends one, with the peer's reply. -/
theorem effect_txlog (i : Instr) (s : State) :
    (effect i s).txlog =
      s.txlog ++ (match frameOf i with | none => [] | some f => [⟨encodeFrame f, peerReply s f⟩]) := by
  cases i with
  | writeid a id x =>
    simp only [effect, frameOf, State.withErr_txlog, spiXfer_txlog, State.withIdr_txlog]
    rw [peerReply_congr s (s.withIdr (pack id x)) rfl rfl (.inr rfl)]
  | pack id x => simp [effect, frameOf]
  | unpack p => simp [effect, frameOf]
  | _ => rfl

/-- The peer register space after an instruction: the effect of its frame, if it sends one. -/
theorem effect_preg (i : Instr) (s : State) :
    (effect i s).preg = (match frameOf i with | none => s.preg | some f => peerEffect s f) := by
  cases i <;> rfl

@[simp] theorem effect_agenda (i : Instr) (s : State) : (effect i s).agenda = s.agenda := by cases i <;> rfl
@[simp] theorem effect_peer (i : Instr) (s : State) : (effect i s).peer = s.peer := by cases i <;> rfl
@[simp] theorem effect_hostLog (i : Instr) (s : State) : (effect i s).hostLog = s.hostLog := by cases i <;> rfl

/-- The value of `MAX_BURST`, for arithmetic. -/
theorem maxBurst_eq : Config.maxBurst = 16 := rfl

/-- What a presented command or frame can lead to when nothing holds it: an instruction's effect, or an error code. -/
theorem runPresented_cases (p : Presented) (s t : State) (h : s.phase = .idle) (e : runPresented p s = .next t) :
    (∃ i, decode p = .ok i ∧ t = effect i s) ∨ (decode p = .error .illegalOp ∧ t = s.withErr errIllegalOp) ∨
    (decode p = .error .illegalLen ∧ t = s.withErr errIllegalLen) := by
  unfold runPresented at e
  split at e
  · rename_i i hi
    rw [exec_idle _ _ h] at e
    cases e
    exact .inl ⟨i, hi, rfl⟩
  · rename_i r hr
    cases r <;> simp [rejected, raiseIllegal] at e
    · exact .inr (.inl ⟨hr, e.symm⟩)
    · exact .inr (.inr ⟨hr, e.symm⟩)

@[simp] theorem opField_cmdByte (n op : BitVec 4) : opField (cmdByte n op) = op := by revert n op; decide

@[simp] theorem nm1Field_cmdByte (n op : BitVec 4) : nm1Field (cmdByte n op) = n := by revert n op; decide

end Machine
end Sys2Proof
end

