-- ==== Sys2Proof/Laws/PerInstr.lean ====
section
/-! SUPPORT. The family EncodesToItsRow: the first byte that the encoder gives an instruction (the command byte, or the bus
opcode) matches the instruction's row of spec/opcode_table.json under the row's mask. -/

namespace Sys2Proof

/-- `CMD` of a record, or `mosi[0]` of a frame. -/
def Laws.firstByte : Presented → Byte
  | .command r => r.cmd
  | .frame mosi => mosi.headD 0

/-- The row's `mask` and `match`, written out from the table. -/
def Laws.tableRow : Instr → Byte × Byte
  | .reset => (0xFF, 0x01)
  | .read _ => (0xFF, 0x02)
  | .readn _ _ => (0x0F, 0x03)
  | .write _ _ => (0xFF, 0x04)
  | .writen _ _ => (0x0F, 0x05)
  | .bitmod _ _ _ => (0xFF, 0x06)
  | .rdstatus => (0xFF, 0x07)
  | .pack _ _ => (0xFF, 0x08)
  | .unpack _ => (0xFF, 0x09)
  | .writeid _ _ _ => (0xFF, 0x0A)
  | .readid _ => (0xFF, 0x0B)
  | .busReset => (0xFF, 0xC0)
  | .busRead _ _ => (0xFF, 0x03)
  | .busWrite _ _ => (0xFF, 0x02)
  | .busBitmod _ _ _ => (0xFF, 0x05)
  | .busRdstatus => (0xFF, 0xA0)

/-- A burst command's byte keeps its `OP` whatever its `NM1`. -/
theorem Laws.cmdByte_op (n op : BitVec 4) : cmdByte n op &&& 0x0F = op.setWidth 8 := by
  revert n op; decide

def Laws.EncodesToItsRow.Statement (i : Instr) : Prop :=
  Laws.firstByte (encode i) &&& (Laws.tableRow i).1 = (Laws.tableRow i).2

theorem Laws.EncodesToItsRow.reset : Laws.EncodesToItsRow.Statement .reset := by
  simp [Laws.EncodesToItsRow.Statement, Laws.firstByte, Laws.tableRow, encode, cmdByte]
theorem Laws.EncodesToItsRow.read (a : Byte) : Laws.EncodesToItsRow.Statement (.read a) := by
  simp [Laws.EncodesToItsRow.Statement, Laws.firstByte, Laws.tableRow, encode, cmdByte]
theorem Laws.EncodesToItsRow.readn (a : Byte) (n : Nat) : Laws.EncodesToItsRow.Statement (.readn a n) :=
  Laws.cmdByte_op _ 3
theorem Laws.EncodesToItsRow.write (a v : Byte) : Laws.EncodesToItsRow.Statement (.write a v) := by
  simp [Laws.EncodesToItsRow.Statement, Laws.firstByte, Laws.tableRow, encode, cmdByte]
theorem Laws.EncodesToItsRow.writen (a : Byte) (vs : List Byte) : Laws.EncodesToItsRow.Statement (.writen a vs) :=
  Laws.cmdByte_op _ 5
theorem Laws.EncodesToItsRow.bitmod (a m v : Byte) : Laws.EncodesToItsRow.Statement (.bitmod a m v) := by
  simp [Laws.EncodesToItsRow.Statement, Laws.firstByte, Laws.tableRow, encode, cmdByte]
theorem Laws.EncodesToItsRow.rdstatus : Laws.EncodesToItsRow.Statement .rdstatus := by
  simp [Laws.EncodesToItsRow.Statement, Laws.firstByte, Laws.tableRow, encode, cmdByte]
theorem Laws.EncodesToItsRow.pack (id : Word32) (x : Bool) : Laws.EncodesToItsRow.Statement (.pack id x) := by
  simp [Laws.EncodesToItsRow.Statement, Laws.firstByte, Laws.tableRow, encode, cmdByte]
theorem Laws.EncodesToItsRow.unpack (p : Image) : Laws.EncodesToItsRow.Statement (.unpack p) := by
  simp [Laws.EncodesToItsRow.Statement, Laws.firstByte, Laws.tableRow, encode, cmdByte]
theorem Laws.EncodesToItsRow.writeid (a : Byte) (id : Word32) (x : Bool) :
    Laws.EncodesToItsRow.Statement (.writeid a id x) := by
  simp [Laws.EncodesToItsRow.Statement, Laws.firstByte, Laws.tableRow, encode, cmdByte]
theorem Laws.EncodesToItsRow.readid (a : Byte) : Laws.EncodesToItsRow.Statement (.readid a) := by
  simp [Laws.EncodesToItsRow.Statement, Laws.firstByte, Laws.tableRow, encode, cmdByte]
theorem Laws.EncodesToItsRow.busReset : Laws.EncodesToItsRow.Statement .busReset := by
  simp [Laws.EncodesToItsRow.Statement, Laws.firstByte, Laws.tableRow, encode, encodeFrame]
theorem Laws.EncodesToItsRow.busRead (a : Byte) (n : Nat) : Laws.EncodesToItsRow.Statement (.busRead a n) := by
  simp [Laws.EncodesToItsRow.Statement, Laws.firstByte, Laws.tableRow, encode, encodeFrame]
theorem Laws.EncodesToItsRow.busWrite (a : Byte) (vs : List Byte) : Laws.EncodesToItsRow.Statement (.busWrite a vs) := by
  simp [Laws.EncodesToItsRow.Statement, Laws.firstByte, Laws.tableRow, encode, encodeFrame]
theorem Laws.EncodesToItsRow.busBitmod (a m v : Byte) : Laws.EncodesToItsRow.Statement (.busBitmod a m v) := by
  simp [Laws.EncodesToItsRow.Statement, Laws.firstByte, Laws.tableRow, encode, encodeFrame]
theorem Laws.EncodesToItsRow.busRdstatus : Laws.EncodesToItsRow.Statement .busRdstatus := by
  simp [Laws.EncodesToItsRow.Statement, Laws.firstByte, Laws.tableRow, encode, encodeFrame]

end Sys2Proof
end

