-- ==== Sys2Proof/Tests/Slice0.lean ====
section
/-! SUPPORT. Tests: words written out from the spec's encodings, ill-formed terms that the well-formedness check refuses, the
spec's own vectors (95_test_vectors.md) on single steps, and for each statement with hypotheses a witness that meets them. -/

open Sys2Proof Sys2Proof.Machine Sys2Proof.Stmt

namespace Sys2Proof.Tests

/-! ### Helpers -/

/-- The outcome is a next state with this property. -/
def nextWith (o : Host.Outcome State Fault Refusal) (p : State → Bool) : Bool :=
  match o with
  | .next t => p t
  | .fault _ => false
  | .refused _ => false

/-- The outcome is this fault. -/
def faultsWith (o : Host.Outcome State Fault Refusal) (f : Fault) : Bool :=
  match o with
  | .fault g => decide (g = f)
  | .next _ => false
  | .refused _ => false

/-- The power-on block with the reference peer (R52), its status byte and some of its registers. -/
def withRef (pstat : Byte) (preg : Memory) : State := { State.reset with peer := .reference pstat, preg := preg }

/-- A record with only its command byte set. -/
def cmdRec (cmd : Byte) : CmdRecord := { CmdRecord.zero with cmd := cmd }

/-- The power-on block with the reference peer and one thing to happen. -/
def withEvent (e : Event) : State := (withRef 0x03 []).withAgenda [e]

/-! ### Well-formedness refuses ill-formed terms -/

theorem test_wf_refuses_readn_zero : (Instr.readn 0x30 0).wf = false := by decide
theorem test_wf_refuses_readn_seventeen : (Instr.readn 0x30 17).wf = false := by decide
theorem test_wf_refuses_writen_empty : (Instr.writen 0x30 []).wf = false := by decide
theorem test_wf_refuses_writen_seventeen : (Instr.writen 0x30 (List.replicate 17 0)).wf = false := by decide
theorem test_wf_refuses_busRead_zero : (Instr.busRead 0x30 0).wf = false := by decide
theorem test_wf_refuses_busWrite_empty : (Instr.busWrite 0x30 []).wf = false := by decide
theorem test_wf_refuses_frame_read_zero : (BusFrame.read 0x30 0).wf = false := by decide
theorem test_wf_refuses_frame_write_empty : (BusFrame.write 0x30 []).wf = false := by decide

/-! ### Decoding (R66 table of command bytes, R59 table of frames, 95 §2.5) -/

theorem test_decode_reset : decodeCommand (cmdRec 0b00000001) = .ok .reset := by decide
theorem test_decode_read : decodeCommand { cmdRec 0b00000010 with addr := 0x2A } = .ok (.read 0x2A) := by decide
theorem test_decode_readn : decodeCommand { cmdRec 0b00100011 with addr := 0x30 } = .ok (.readn 0x30 3) := by decide
theorem test_decode_readn_sixteen : decodeCommand { cmdRec 0b11110011 with addr := 0xF8 } = .ok (.readn 0xF8 16) := by decide
theorem test_decode_write : decodeCommand { cmdRec 0b00000100 with addr := 0x35, val := 0x04 } = .ok (.write 0x35 0x04) := by decide
theorem test_decode_writen :
    decodeCommand { cmdRec 0b00010101 with addr := 0x28, wdata := wdataOf [0x05, 0xF0, 0x77] } = .ok (.writen 0x28 [0x05, 0xF0]) := by
  decide
theorem test_decode_bitmod :
    decodeCommand { cmdRec 0b00000110 with addr := 0x2C, mask := 0x01, val := 0xAA } = .ok (.bitmod 0x2C 0x01 0xAA) := by decide
theorem test_decode_rdstatus : decodeCommand (cmdRec 0b00000111) = .ok .rdstatus := by decide
theorem test_decode_pack :
    decodeCommand { cmdRec 0b00001000 with id := 0x123, ext := false } = .ok (.pack 0x123 false) := by decide
theorem test_decode_unpack :
    decodeCommand { cmdRec 0b00001001 with idb := ⟨0x91, 0xA8, 0x56, 0x78⟩ } = .ok (.unpack ⟨0x91, 0xA8, 0x56, 0x78⟩) := by decide
theorem test_decode_writeid :
    decodeCommand { cmdRec 0b00001010 with addr := 0x31, id := 0x12345678, ext := true } = .ok (.writeid 0x31 0x12345678 true) := by
  decide
theorem test_decode_readid : decodeCommand { cmdRec 0b00001011 with addr := 0x61 } = .ok (.readid 0x61) := by decide
theorem test_decode_busReset : decode (.frame [0b11000000]) = .ok .busReset := by decide
theorem test_decode_busRead : decode (.frame [0b00000011, 0x30, 0x00, 0x00]) = .ok (.busRead 0x30 2) := by decide
theorem test_decode_busWrite : decode (.frame [0b00000010, 0x28, 0x05, 0xF0]) = .ok (.busWrite 0x28 [0x05, 0xF0]) := by decide
theorem test_decode_busBitmod : decode (.frame [0b00000101, 0x2C, 0x01, 0x00]) = .ok (.busBitmod 0x2C 0x01 0x00) := by decide
theorem test_decode_busRdstatus : decode (.frame [0b10100000, 0x00]) = .ok .busRdstatus := by decide

/-- 95 §2.5: reserved operations, `OP` checked before `NM1`. -/
theorem test_reserved_ops_rejected :
    [0x00#8, 0x0C#8, 0x0D#8, 0x0E#8, 0x0F#8, 0xFC#8].all (fun c => decide (decodeCommand (cmdRec c) = .error .illegalOp)) = true := by
  decide

/-- 95 §2.5: `NM1 = 1` on commands without a length. -/
theorem test_nonzero_nm1_rejected :
    [0x11#8, 0x12#8, 0x14#8, 0x16#8, 0x17#8, 0x18#8, 0x19#8, 0x1A#8, 0x1B#8].all
      (fun c => decide (decodeCommand (cmdRec c) = .error .illegalLen)) = true := by
  decide

/-- 95 §2.5: READN of 10 with `MAX_BURST = 8`. -/
theorem test_burst_above_max_rejected : decodeCommandFor 8 (cmdRec 0x93) = .error .illegalLen := by decide

theorem test_frame_unknown_opcode : decodeFrame [0x80] = .error .unknownOpcode := by decide
theorem test_frame_read_without_reply : decodeFrame [0x03, 0x30] = .error .badFrameLength := by decide

/-- The table rows whose byte names one level only, and READN and WRITEN at `NM1 = 0`. -/
theorem test_table_words :
    [0x01, 0x02, 0x03, 0x04, 0x05, 0x06, 0x07, 0xC0, 0xA0].map (decodeTableWord 8) =
      [some .reset, some (.read 0), some (.readn 0 1), some (.write 0 0), some (.writen 0 [0]), some (.bitmod 0 0 0),
       some .rdstatus, some .busReset, some .busRdstatus] := by
  decide

/-- R66, R67: a line of assembly, and one that does not fit. -/
theorem test_assemble_clearbits :
    assembleLine "  CLEARBITS 0x2C, 0x01 ; RX0".toList = some (some (.bitmod 0x2C 0x01 0x00)) := by rfl
theorem test_assemble_refuses_large_byte : assembleLine "WRITE 0x100, 1".toList = none := by decide

/-! ### Single steps on the spec's vectors (95 §2.1, §2.2, §2.6) -/

/-- 95 §2.1 RESET. -/
theorem test_reset :
    nextWith (exec .reset (withRef 0x03 []))
      (fun t => decide (t.phase = .settle ∧ t.err = 0 ∧ t.txlog = [⟨[0xC0], [0xFF]⟩] ∧ t.preg.read 0x00 = some 0x00)) = true := by
  decide

/-- 95 §2.1 READ 0x2A. -/
theorem test_read :
    nextWith (exec (.read 0x2A) (withRef 0x03 [(0x2A, 0x5C)]))
      (fun t => decide (t.rdata[0] = some 0x5C ∧ t.rdata[1] = none ∧ t.txlog = [⟨[0x03, 0x2A, 0x00], [0xFF, 0xFF, 0x5C]⟩])) = true := by
  decide

/-- 95 §2.1 READN 0x30, 3. -/
theorem test_readn :
    nextWith (exec (.readn 0x30 3) (withRef 0x03 [(0x30, 0x08), (0x31, 0x91), (0x32, 0xA8)]))
      (fun t => decide (t.rdata[0] = some 0x08 ∧ t.rdata[1] = some 0x91 ∧ t.rdata[2] = some 0xA8 ∧ t.rdata[3] = none)) = true := by
  decide

/-- 95 §2.6, shortened: a burst across the top wraps to 0x00. -/
theorem test_readn_wraps :
    nextWith (exec (.readn 0xFE 4) (withRef 0x03 [(0x00, 0x80), (0x01, 0x81), (0xFE, 0xFE), (0xFF, 0xFF)]))
      (fun t => decide (t.txlog = [⟨[0x03, 0xFE, 0, 0, 0, 0], [0xFF, 0xFF, 0xFE, 0xFF, 0x80, 0x81]⟩])) = true := by
  decide

/-- 95 §2.1 WRITE 0x2A, 0x00. -/
theorem test_write :
    nextWith (exec (.write 0x2A 0x00) (withRef 0x03 [(0x2A, 0x5C)]))
      (fun t => decide (t.preg = [(0x2A, 0x00)] ∧ (t.txlog.map (·.mosi)) = [[0x02, 0x2A, 0x00]])) = true := by
  decide

/-- 95 §2.1 WRITEN 0x28. -/
theorem test_writen :
    nextWith (exec (.writen 0x28 [0x05, 0xF0, 0x00]) (withRef 0x03 []))
      (fun t => decide (t.preg = [(0x28, 0x05), (0x29, 0xF0), (0x2A, 0x00)] ∧
        (t.txlog.map (·.mosi)) = [[0x02, 0x28, 0x05, 0xF0, 0x00]])) = true := by
  decide

/-- 95 §2.2 the mixed row. -/
theorem test_bitmod_mixed :
    nextWith (exec (.bitmod 0x2C 0x0F 0x55) (withRef 0x03 [(0x2C, 0xAA)])) (fun t => decide (t.preg = [(0x2C, 0xA5)])) = true := by
  decide

/-- 95 §2.2 value bits outside the mask. -/
theorem test_bitmod_outside_mask :
    nextWith (exec (.bitmod 0x2C 0x0F 0xF0) (withRef 0x03 [(0x2C, 0xF0)])) (fun t => decide (t.preg = [(0x2C, 0xF0)])) = true := by
  decide

/-- 95 §2.1 RDSTATUS. -/
theorem test_rdstatus :
    nextWith (exec .rdstatus (withRef 0x03 []))
      (fun t => decide (t.stat = some 0x03 ∧ t.txlog = [⟨[0xA0, 0x00], [0xFF, 0x03]⟩] ∧ t.noMessage = some false)) = true := by
  decide

/-- 95 §2.1 PACK 0x123, S, and R81: bit 29 is ignored. -/
theorem test_pack_standard :
    nextWith (exec (.pack 0x123 false) (withRef 0x03 [])) (fun t => decide (t.idr = idrOf ⟨0x24, 0x60, 0x00, 0x00⟩ ∧ t.txlog = [])) = true := by
  decide
theorem test_pack_ignores_bit_29 :
    nextWith (exec (.pack 0x20000000 true) (withRef 0x03 [])) (fun t => decide (t.idr = idrOf ⟨0x00, 0x08, 0x00, 0x00⟩)) = true := by
  decide

/-- 95 §2.1 UNPACK, and 95 §2.4: the ignored bits of a standard image. -/
theorem test_unpack_extended :
    nextWith (exec (.unpack ⟨0x91, 0xA8, 0x56, 0x78⟩) (withRef 0x03 []))
      (fun t => decide (t.idout = some 0x12345678 ∧ t.extout = some true)) = true := by
  decide
theorem test_unpack_standard_ignores :
    nextWith (exec (.unpack ⟨0xFF, 0xF7, 0xAB, 0xCD⟩) (withRef 0x03 []))
      (fun t => decide (t.idout = some 0x7FF ∧ t.extout = some false)) = true := by
  decide

/-- 95 §2.1 WRITEID 0x31. -/
theorem test_writeid :
    nextWith (exec (.writeid 0x31 0x12345678 true) (withRef 0x03 []))
      (fun t => decide ((t.txlog.map (·.mosi)) = [[0x02, 0x31, 0x91, 0xA8, 0x56, 0x78]] ∧
        t.preg = [(0x31, 0x91), (0x32, 0xA8), (0x33, 0x56), (0x34, 0x78)] ∧ t.idout = none)) = true := by
  decide

/-- R82, R84: the image is written whole; R18, R19, R23: the zero bits of the two layouts read as zero. -/
theorem test_unpack_writes_whole :
    nextWith (exec (.unpack ⟨0xFF, 0xF7, 0xAB, 0xCD⟩) (withRef 0x03 [])) (fun t => decide (t.idr = idrOf ⟨0xFF, 0xF7, 0xAB, 0xCD⟩ ∧
      [resultReg t (.idr 0), resultReg t (.idr 1), resultReg t (.idr 2), resultReg t (.idr 3)] =
        [some 0xFF, some 0xE0, some 0x00, some 0x00])) = true := by
  decide
theorem test_readid_writes_whole :
    nextWith (exec (.readid 0x61) (withRef 0x03 [(0x61, 0x91), (0x62, 0xBC), (0x63, 0x56), (0x64, 0x78)]))
      (fun t => decide (t.idr = idrOf ⟨0x91, 0xBC, 0x56, 0x78⟩ ∧ t.idout = some 0x12345678 ∧
        resultReg t (.idr 1) = some 0xA8 ∧ resultReg t (.idr 3) = some 0x78)) = true := by
  decide

/-- 95 §2.1 READID 0x61. -/
theorem test_readid :
    nextWith (exec (.readid 0x61) (withRef 0x03 [(0x61, 0xFF), (0x62, 0xE0), (0x63, 0x00), (0x64, 0x00)]))
      (fun t => decide (t.idout = some 0x7FF ∧ t.extout = some false ∧ t.rdata[0] = none ∧
        t.idr = idrOf ⟨0xFF, 0xE0, 0x00, 0x00⟩)) = true := by
  decide

/-- R42, R106: the frame `[0xC0]`. -/
theorem test_busReset : nextWith (exec .busReset (withRef 0x03 [])) (fun t => decide (t.phase = .settle)) = true := by decide

/-- R38: the reply of a READ frame. -/
theorem test_busRead :
    nextWith (exec (.busRead 0x30 2) (withRef 0x03 [(0x30, 0x08), (0x31, 0x91)]))
      (fun t => decide (t.txlog = [⟨[0x03, 0x30, 0, 0], [0xFF, 0xFF, 0x08, 0x91]⟩] ∧ t.rdata[0] = none)) = true := by
  decide

/-- R39: the bytes of a WRITE frame. -/
theorem test_busWrite :
    nextWith (exec (.busWrite 0xFF [0x01, 0x02]) (withRef 0x03 [])) (fun t => decide (t.preg = [(0x00, 0x02), (0xFF, 0x01)])) = true := by
  decide

/-- R40 (95 §2.2, first row). -/
theorem test_busBitmod :
    nextWith (exec (.busBitmod 0x2C 0x01 0x00) (withRef 0x03 [(0x2C, 0x03)])) (fun t => decide (t.preg = [(0x2C, 0x02)])) = true := by
  decide

/-- R41: the reply of a READ STATUS frame; `STAT` is the command's. -/
theorem test_busRdstatus :
    nextWith (exec .busRdstatus (withRef 0x03 []))
      (fun t => decide (t.txlog = [⟨[0xA0, 0x00], [0xFF, 0x03]⟩] ∧ t.stat = none)) = true := by
  decide

/-- 95 §3 P4 step 1: a reserved command. -/
theorem test_illegal_op :
    nextWith (step (withEvent (.present (.command (cmdRec 0x0C))))) (fun t => decide (t.err = 1 ∧ t.txlog = [])) = true := by decide

/-- 95 §3 P4 step 2: RESET with `NM1 = 1`. -/
theorem test_illegal_len :
    nextWith (step (withEvent (.present (.command (cmdRec 0x11))))) (fun t => decide (t.err = 2 ∧ t.phase = .idle)) = true := by decide

/-- 95 §2.5: a command presented in SETTLE is held, and stays presented. -/
theorem test_held_stays_presented :
    nextWith (step ((withEvent (.present (.command (cmdRec 0x00)))).withPhase .settle))
      (fun t => decide (t.err = 0 ∧ t.agenda = [.present (.command (cmdRec 0x00))] ∧ t.phase = .idle)) = true := by
  decide

/-- R22: reading `STAT` after power-on. -/
theorem test_host_read_none : faultsWith (step (withEvent (.hostRead .stat))) (.readOfNone .stat) = true := by decide

/-- A table word that withFetchWord places is what the next step runs. -/
theorem test_fetch_word_runs : step (State.reset.withFetchWord 8 0x02) = exec (.read 0x00) State.reset := by rfl

/-! ### Witnesses: the hypotheses of each statement are met together -/

/-- A state with the reference peer, idle, with a byte at 0x2C and three around the top. -/
def wit : State := withRef 0x03 [(0x00, 0x80), (0x2C, 0x03), (0xFE, 0x11), (0xFF, 0x12)]

/-- The same while the settle interval runs. -/
def witSettle : State := (wit.withPhase .settle).withTxlog [⟨[0xC0], [0xFF]⟩]

/-- The state after `WRITE 0x10, 0x01`. -/
def effectOfWrite (s : State) : State := (spiXfer (.write 0x10 [0x01]) s).2.withErr errNone

theorem witness_DecodeEncodeRoundTrip :
    (Instr.readn 0x30 16).wf = true ∧ (Instr.writen 0xFF [0x01]).wf = true ∧ (Instr.busRead 0x00 1).wf = true := by decide
theorem witness_DecodedInstructionsAreWellFormed : decode (.command (cmdRec 0xF3)) = .ok (.readn 0 16) := by decide
theorem witness_BurstLengthIsNm1PlusOneUpToMaxBurst :
    (opOf (cmdRec 0x93) = 3 ∧ 8 < nm1Of (cmdRec 0x93) + 1) ∧ (opOf (cmdRec 0x73) = 3 ∧ nm1Of (cmdRec 0x73) + 1 ≤ 8) ∧
    (opOf (cmdRec 0x75) = 5 ∧ nm1Of (cmdRec 0x75) + 1 ≤ 8) := by decide
theorem witness_UnusedRecordFieldsAreIgnored :
    let r := cmdRec 0x15
    let q := { cmdRec 0x15 with mask := 0x55, wdata := wdataOf [0, 0, 0x77] }
    r.cmd = q.cmd ∧ r ≠ q ∧ r.addr = q.addr ∧ opOf r = 5 ∧
      ∀ (k : Nat) (_ : k < Config.maxBurst), k ≤ nm1Of r → r.wdata[k] = q.wdata[k] := by
  refine ⟨rfl, by decide, rfl, rfl, ?_⟩
  intro k hk hn
  have h : k ≤ 1 := hn
  interval_cases k <;> rfl
theorem witness_AssembledCommandsAreWellFormed :
    assembleCommand "READN".toList ["0xFF".toList, "16".toList] = some (.readn 0xFF 16) ∧
    byteOperand "0xFF".toList = some 0xFF ∧ readNumber "256".toList = some 256 ∧
    idOperand "0xFFFFFFFF".toList = some 0xFFFFFFFF ∧ readNumber "0x100000000".toList = some 0x100000000 ∧
    countOperand "16".toList = some 16 ∧ readNumber "17".toList = some 17 ∧ readNumber "0".toList = some 0 := by decide
theorem witness_StepRunsDecodedInstruction :
    (withEvent (.present (.command (cmdRec 0x01)))).phase = .idle ∧
    (withEvent (.present (.command (cmdRec 0x01)))).agenda = [.present (.command (cmdRec 0x01))] ∧
    decode (.command (cmdRec 0x01)) = .ok .reset := by decide
theorem witness_PresentedCommandIsCheckedInOrder :
    (opOf (cmdRec 0xFC) = 12 ∧ opOf (cmdRec 0x00) = 0) ∧
    (¬(opOf (cmdRec 0x1B) = 0 ∨ 12 ≤ opOf (cmdRec 0x1B)) ∧ ¬(opOf (cmdRec 0x1B) = 3 ∨ opOf (cmdRec 0x1B) = 5) ∧ nm1Of (cmdRec 0x1B) ≠ 0) ∧
    (¬(opOf (cmdRec 0xF5) = 0 ∨ 12 ≤ opOf (cmdRec 0xF5)) ∧ opOf (cmdRec 0xF5) = 5) ∧
    (withEvent (.present (.command (cmdRec 0xFC)))).agenda = [.present (.command (cmdRec 0xFC))] ∧ witSettle.phase = .settle := by
  decide
theorem witness_ReservedOpRaisesIllegalOp :
    (cmdRec 0xFC).cmd.extractLsb' 0 4 ∈ [0x0#4, 0xC#4, 0xD#4, 0xE#4, 0xF#4] ∧
    (withEvent (.present (.command (cmdRec 0xFC)))).phase = .idle := by decide
theorem witness_NonzeroNm1RaisesIllegalLen :
    (cmdRec 0xFB).cmd.extractLsb' 0 4 ∈ [0x1#4, 0x2#4, 0x4#4, 0x6#4, 0x7#4, 0x8#4, 0x9#4, 0xA#4, 0xB#4] ∧
    (cmdRec 0xFB).cmd.extractLsb' 4 4 ≠ 0#4 ∧ (withEvent (.present (.command (cmdRec 0xFB)))).phase = .idle := by decide
theorem witness_AcceptedCommandClearsErr : decodeCommand (cmdRec 0x08) = .ok (.pack 0 false) ∧ (wit.withErr 2).phase = .idle := by decide
theorem witness_ErrTellsWhetherACommandWasIllegal :
    stepRaisesIllegal (withEvent (.present (.command (cmdRec 0x1B)))) = true ∧
    stepRaisesIllegal (withEvent (.present (.command (cmdRec 0x0B)))) = false ∧
    (withEvent (.present (.command (cmdRec 0x0B)))).err = 0 ∧
    nextWith (step (withEvent (.present (.command (cmdRec 0x1B))))) (fun _ => true) = true := by decide
theorem witness_NothingReachesThePeerWhileSettling :
    witSettle.phase = .settle ∧ (∀ a v rest, witSettle.agenda ≠ .peerChange a v :: rest) ∧
    step witSettle = .next (witSettle.withPhase .idle) := by
  refine ⟨rfl, ?_, rfl⟩
  intro a v rest h
  cases h
theorem witness_SettleElapsedOnlySetsIdle :
    (witSettle.withAgenda [.settleElapsed]).phase = .settle ∧ (withEvent .settleElapsed).agenda = [.settleElapsed] ∧
    (withEvent .settleElapsed).phase = .idle := by decide
/-- The host reads `ERR` and a `STAT` that holds a value while the settle interval runs. -/
def witSettleReads : State :=
  (witSettle.withStat 0x03).withAgenda [.hostRead .err, .peerChange 0 1, .hostRead .stat, .present (.frame [0xC0])]

theorem witness_SettleIntervalEnds :
    witSettleReads.phase = .settle ∧ Event.hostRead .stat ∈ witSettleReads.agenda ∧
    ∀ r, Event.hostRead r ∈ witSettleReads.agenda → resultReg witSettleReads r ≠ none := by
  refine ⟨rfl, by decide, ?_⟩
  intro r h
  have h' : r = .err ∨ r = .stat := by simpa [witSettleReads, State.withAgenda] using h
  rcases h' with rfl | rfl <;> decide
theorem witness_LogGrowsByAtMostOneTransaction :
    nextWith (step (withEvent (.present (.frame [0xA0, 0x00])))) (fun t => decide (t.txlog.length = 1)) = true := by decide
theorem witness_StepStopsOnlyWhereNamed :
    step (withEvent (.hostRead .idout)) = .fault (.readOfNone .idout) ∧
    step ((withEvent (.hostRead .err)).withErr 3) = .fault .errReserved ∧
    step (withEvent (.present (.frame [0x80]))) = .refused .unknownFrame := ⟨rfl, rfl, rfl⟩
theorem witness_HostReadGivesTheRegister :
    ((withEvent (.hostRead .stat)).withStat 0x81).stat = some 0x81 ∧ (0x81#32).toNat = (0x81#8).toNat ∧
    ((withEvent (.hostRead (.idr 3))).withIdr ⟨0x24, 0x68, 0x00, 0x01⟩).idr.eid0 = some 0x01 ∧
    ((withEvent (.hostRead (.rdata 15))).withRdata (Vector.replicate 16 (some 0x7F))).rdata[15] = some 0x7F ∧
    ((withEvent (.hostRead .extout)).withIdOut (0x1FFFFFFF, true)).extout = some true ∧
    ((withEvent (.hostRead .idout)).withIdOut (0x1FFFFFFF, true)).idout = some 0x1FFFFFFF ∧
    (withEvent (.hostRead .err)).err ≠ 3 := by decide
theorem witness_HostReadOfNoneFaults :
    (withEvent (.hostRead (.rdata 15))).rdata[15] = none ∧ (withEvent (.hostRead .extout)).extout = none ∧
    (withEvent (.hostRead .extout)).agenda = [.hostRead .extout] ∧ (ResultReg.idr 0) ≠ .err ∧
    (withEvent (.hostRead .stat)).stat = none ∧ (withEvent (.hostRead .idout)).idout = none ∧
    [State.reset.idr.sidh, State.reset.idr.sidl, State.reset.idr.eid8, State.reset.idr.eid0][(3 : Fin 4)] = none := by decide
theorem witness_PeerHardwareChangesOnlyPeerRegisters :
    (withEvent (.peerChange 0xFF 0x01)).agenda = [.peerChange 0xFF 0x01] ∧ State.reset.peer = .volatile := by decide
theorem witness_EndedRunStays : runEnded wit := ⟨rfl, rfl⟩
theorem witness_PowerOnState : decodeCommand (cmdRec 0x07) = .ok .rdstatus := by decide
theorem witness_StepKeepsInv :
    MachineInv witSettle ∧ step witSettle = .next (witSettle.withPhase .idle) := by
  refine ⟨⟨by decide, by decide, .inl rfl, .inl ⟨rfl, rfl⟩, by decide, ?_, ?_, ?_⟩, rfl⟩
  · intro i j _ h; exact absurd h (by simp [witSettle, wit, withRef, State.reset, State.withTxlog, State.withPhase])
  · intro e he; simp [witSettle, State.withTxlog] at he; subst he; decide
  · intro _; exact ⟨⟨[0xC0], [0xFF]⟩, rfl, rfl⟩
theorem witness_OnlyFiveOpcodesReachTheBus :
    nextWith (step (withEvent (.present (.command (cmdRec 0x06)))))
      (fun t => decide ((t.txlog.map (·.mosi)) = [[0x05, 0x00, 0x00, 0x00]])) = true := by decide
theorem witness_BlockSeesThePeerOnlyThroughReplies :
    exec (.write 0x10 0x01) wit = .next (effectOfWrite wit) ∧
    exec (.write 0x10 0x01) (wit.withPreg []) = .next (effectOfWrite (wit.withPreg [])) ∧
    (effectOfWrite (wit.withPreg [])).txlog = (effectOfWrite wit).txlog := ⟨rfl, rfl, rfl⟩
theorem witness_OnlyTheNamedCommandsWriteResults :
    nextWith (exec .rdstatus wit) (fun t => decide (t.stat ≠ wit.stat)) = true ∧
    nextWith (exec (.read 0xFF) wit) (fun t => decide (t.rdata ≠ wit.rdata)) = true ∧
    nextWith (exec (.pack 0 true) wit) (fun t => decide (t.idr ≠ wit.idr)) = true ∧
    nextWith (exec (.unpack ⟨0, 0, 0, 0⟩) wit) (fun t => decide (t.idout ≠ wit.idout)) = true ∧
    nextWith (exec .busReset wit) (fun t => decide (t.phase ≠ wit.phase)) = true := by decide
theorem witness_HeldInstructionChangesNothing : witSettle.phase = .settle := rfl
/-- The idle state of every effect statement, with the volatile and with the reference peer; a byte the reference peer holds;
the lengths at both ends; addresses at the top. -/
theorem witness_effect_statements :
    wit.phase = .idle ∧ State.reset.phase = .idle ∧ State.reset.peer = .volatile ∧ wit.peer = .reference 0x03 ∧
    wit.preg.read (0x2C#8).toNat = some 0x03 ∧ wit.preg.read (0xFF#8 + 1).toNat = some 0x80 ∧
    (1 ≤ 16 ∧ 16 ≤ Config.maxBurst) ∧ (1 ≤ [0x01#8].length ∧ [0x01#8].length ≤ Config.maxBurst) ∧
    (0xFF#8).toNat + [0x01#8].length ≤ 256 ∧ (0xFC#8).toNat ≤ 0xFC := by decide
theorem witness_reference_peer : wit.hasReferencePeer := ⟨0x03, rfl⟩
theorem witness_writen_frame_clause : ∀ k, k < [0x01#8, 0x02#8].length → (burstAddr wit.peer 0xFF k).toNat ≠ 0x2C := by decide
theorem witness_ReadidEffect_image :
    let s := withRef 0x03 [(0x00, 0x56), (0x01, 0x78), (0xFE, 0x91), (0xFF, 0xA8)]
    s.preg.read (0xFE#8).toNat = some 0x91 ∧ s.preg.read (0xFE#8 + 1).toNat = some 0xA8 ∧
    s.preg.read (0xFE#8 + 2).toNat = some 0x56 ∧ s.preg.read (0xFE#8 + 3).toNat = some 0x78 := by decide
theorem witness_IdrAfterACommandThatWritesIt :
    wit.phase = .idle ∧ (∃ p, Instr.unpack ⟨0xFF, 0xF7, 0xAB, 0xCD⟩ = .unpack p) ∧
    (0xF7#8).getLsbD 3 = false ∧ (0xBC#8).getLsbD 3 = true := ⟨rfl, ⟨_, rfl⟩, by decide, by decide⟩
theorem witness_HardwiredBitsOfIdrReadZero :
    let s := (withEvent (.hostRead (.idr 2))).withIdr ⟨0xFF, 0xF7, 0xAB, 0xCD⟩
    s.agenda = [.hostRead (.idr 2)] ∧ nextWith (step s) (fun t => decide (t.hostLog = [⟨.idr 2, 0⟩])) = true ∧
    nextWith (step (s.withAgenda [.hostRead (.idr 1)])) (fun t => decide (t.hostLog = [⟨.idr 1, 0xE0⟩])) = true := by decide
theorem witness_PackUsesOnlyTheFormsBits :
    (0x800#32).toNat % 2 ^ 11 = (0x0#32).toNat % 2 ^ 11 ∧ (0x20000000#32).toNat % 2 ^ 29 = (0x0#32).toNat % 2 ^ 29 := by decide
theorem witness_UnpackValue : (0x08#8).getLsbD 3 = true ∧ (0xF7#8).getLsbD 3 = false := by decide
theorem witness_UnpackPackRoundTrip : (0x7FF#32).toNat ≤ 0x7FF ∧ (0x1FFFFFFF#32).toNat ≤ 0x1FFFFFFF := by decide
theorem witness_UnpackIgnoresTheNamedBits :
    ((0xE0#8).getLsbD 3 = (0xF7#8).getLsbD 3 ∧ 0xE0#8 &&& 0xE0 = 0xF7 &&& 0xE0) ∧
    ((0xA8#8).getLsbD 3 = (0xBC#8).getLsbD 3 ∧ 0xA8#8 &&& 0xE3 = 0xBC &&& 0xE3) := by decide
theorem witness_StandardAndExtendedImagesNeverCoincide :
    (0x123#32).toNat ≤ 0x7FF ∧ (0x048C0000#32).toNat ≤ 0x1FFFFFFF := by decide

end Sys2Proof.Tests
end

