-- ==== Sys2Proof/Proofs/Encoding.lean ====
section
/-! SUPPORT. The decoder of command records said once, by the two fields of `CMD` and by the three ways its checks can go
(30_encoding.md R55, R57, R62, R63, R65), what a step that takes up an illegal command leaves unchanged (R90), and the
statements of the family on the encoding. -/

namespace Sys2Proof.Machine

open Sys2Proof.Stmt

/-! ### The fields of a command byte -/

/-- `OP` as a number (R55). -/
theorem toNat_opField (r : CmdRecord) : (opField r.cmd).toNat = opOf r := by
  simp [opField, opOf, BitVec.extractLsb'_toNat]

/-- `NM1` as a number (R55). -/
theorem toNat_nm1Field (r : CmdRecord) : (nm1Field r.cmd).toNat = nm1Of r := by
  have hlt := r.cmd.isLt
  simp only [nm1Field, nm1Of, BitVec.extractLsb'_toNat, Nat.shiftRight_eq_div_pow]
  omega

theorem nm1Of_lt (r : CmdRecord) : nm1Of r < 16 := toNat_nm1Field r ▸ (nm1Field r.cmd).isLt

theorem burstLen_eq (r : CmdRecord) : burstLen r.cmd = nm1Of r + 1 := by
  rw [burstLen, toNat_nm1Field]

theorem reservedOp_eq_true_iff (r : CmdRecord) :
    reservedOp (opField r.cmd) = true ↔ opOf r = 0 ∨ 12 ≤ opOf r := by
  simp [reservedOp, toNat_opField]

theorem burstOp_eq_true_iff (r : CmdRecord) : burstOp (opField r.cmd) = true ↔ opOf r = 3 ∨ opOf r = 5 := by
  simp [burstOp, toNat_opField]

/-- No command with a burst length has a reserved `OP` (R56). -/
theorem reservedOp_of_burstOp {op : BitVec 4} (h : burstOp op = true) : reservedOp op = false := by
  revert op; decide

/-! ### The checks of the decoder -/

theorem lenWrong_of_burstOp {cmd : Byte} (h : burstOp (opField cmd) = true) (maxBurst : Nat) :
    lenWrong maxBurst cmd = decide (maxBurst < burstLen cmd) := by
  simp [lenWrong, h]

theorem lenWrong_of_not_burstOp {cmd : Byte} (h : burstOp (opField cmd) = false) (maxBurst : Nat) :
    lenWrong maxBurst cmd = decide (nm1Field cmd ≠ 0) := by
  simp [lenWrong, h]

section
variable {r : CmdRecord} {maxBurst : Nat}

/-- The first check of R65. -/
theorem decodeCommandFor_reserved (h : reservedOp (opField r.cmd) = true) :
    decodeCommandFor maxBurst r = .error .illegalOp := by
  simp [decodeCommandFor, h]

/-- The second check of R65. -/
theorem decodeCommandFor_lenWrong (h : reservedOp (opField r.cmd) = false) (hl : lenWrong maxBurst r.cmd = true) :
    decodeCommandFor maxBurst r = .error .illegalLen := by
  simp [decodeCommandFor, h, hl]

/-- A command record that passes both checks of R65. -/
theorem decodeCommandFor_legal (h : reservedOp (opField r.cmd) = false) (hl : lenWrong maxBurst r.cmd = false) :
    decodeCommandFor maxBurst r = selectCommand r := by
  simp [decodeCommandFor, h, hl]

/-- A burst longer than `MAX_BURST` (R57). -/
theorem decodeCommandFor_burst_too_long (hop : opOf r = 3 ∨ opOf r = 5) (hn : maxBurst < nm1Of r + 1) :
    decodeCommandFor maxBurst r = .error .illegalLen := by
  have hb := (burstOp_eq_true_iff r).2 hop
  refine decodeCommandFor_lenWrong (reservedOp_of_burstOp hb) ?_
  simpa [lenWrong_of_burstOp hb, burstLen_eq] using hn

/-- A burst of at most `MAX_BURST` (R57). -/
theorem decodeCommandFor_burst_fits (hop : opOf r = 3 ∨ opOf r = 5) (hn : nm1Of r + 1 ≤ maxBurst) :
    decodeCommandFor maxBurst r = selectCommand r := by
  have hb := (burstOp_eq_true_iff r).2 hop
  refine decodeCommandFor_legal (reservedOp_of_burstOp hb) ?_
  simpa [lenWrong_of_burstOp hb, burstLen_eq] using hn

theorem selectCommand_readn (h : opOf r = 3) : selectCommand r = .ok (.readn r.addr (nm1Of r + 1)) := by
  simp [selectCommand, toNat_opField, h, burstLen_eq]

theorem selectCommand_writen (h : opOf r = 5) :
    selectCommand r = .ok (.writen r.addr (r.wdata.toList.take (nm1Of r + 1))) := by
  simp [selectCommand, toNat_opField, h, burstLen_eq]

end

/-- The burst bytes of WRITEN are `NM1 + 1` in number (R57). -/
theorem length_take_wdata (r : CmdRecord) : (r.wdata.toList.take (nm1Of r + 1)).length = nm1Of r + 1 := by
  have := nm1Of_lt r
  simp only [List.length_take, Vector.length_toList, maxBurst_eq]
  omega

/-- The burst bytes of WRITEN are the first elements of `WDATA`, unchanged (R58). -/
theorem getElem?_take_wdata (r : CmdRecord) {k : Nat} (hk : k < Config.maxBurst) (hn : k < nm1Of r + 1) :
    (r.wdata.toList.take (nm1Of r + 1))[k]? = some r.wdata[k] := by
  rw [List.getElem?_take_of_lt hn, List.getElem?_eq_getElem (by simpa using hk), Vector.getElem_toList]

/-! ### A step that takes up an illegal command -/

/-- What is presented is taken up when nothing holds it (R69). -/
theorem step_present_idle {s : State} {p : Presented} {rest : List Event} (hidle : s.phase = .idle)
    (hag : s.agenda = .present p :: rest) : step s = runPresented p (s.withAgenda rest) := by
  simp [step, hag, hidle]

/-- A command that does not decode is rejected by its error (R65). -/
theorem step_illegal_command {s : State} {r : CmdRecord} {rest : List Event} {e : Reject} (hidle : s.phase = .idle)
    (hag : s.agenda = .present (.command r) :: rest) (hdec : decodeCommand r = .error e) :
    step s = rejected e (s.withAgenda rest) := by
  simp [step_present_idle hidle hag, runPresented, decode, hdec]

/-- Taking up an illegal command writes `ERR`, and every other field is as before (R10, R90). -/
theorem raiseIllegal_changes_only_err (code : BitVec 2) (s : State) (rest : List Event) (hidle : s.phase = .idle) :
    let t := raiseIllegal code (s.withAgenda rest)
    t.err = code ∧ t.txlog = s.txlog ∧ t.preg = s.preg ∧ sameResults s t ∧ t.phase = .idle ∧
      t.peer = s.peer ∧ t.draws = s.draws ∧ t.hostLog = s.hostLog ∧ t.agenda = rest := by
  simp [raiseIllegal, sameResults, hidle]

/-! ### The statements -/

/-- Settles O5: the length check decides legality, and `NM1` is below 16, so `WDATA` holds every burst. -/
theorem burstLengthIsNm1PlusOneUpToMaxBurst : Obligations.BurstLengthIsNm1PlusOneUpToMaxBurst := by
  intro maxBurst r
  have hlt := nm1Of_lt r
  refine ⟨by omega, decodeCommandFor_burst_too_long, fun hop hn => ?_, fun hop hn => ?_, fun hop => ?_⟩
  · rw [decodeCommandFor_burst_fits (.inl hop) hn, selectCommand_readn hop]
  · refine ⟨r.wdata.toList.take (nm1Of r + 1), ?_, length_take_wdata r, fun k hk => getElem?_take_wdata r hk⟩
    rw [decodeCommandFor_burst_fits (.inr hop) hn, selectCommand_writen hop]
  · rw [decodeCommand, decodeCommandFor_burst_fits hop (by simpa using hlt)]
    rcases hop with hread | hwrite
    · exact ⟨_, selectCommand_readn hread⟩
    · exact ⟨_, selectCommand_writen hwrite⟩

/-- Settles O11: the reserved `OP` is the decoder's first check, and its error writes only `ERR`. -/
theorem reservedOpRaisesIllegalOp : Obligations.ReservedOpRaisesIllegalOp := by
  intro s r rest hidle hag hop
  have hres : ∀ op ∈ [0x0#4, 0xC#4, 0xD#4, 0xE#4, 0xF#4], reservedOp op = true := by decide
  have hdec : decodeCommand r = .error .illegalOp := decodeCommandFor_reserved (hres _ hop)
  exact ⟨_, step_illegal_command hidle hag hdec, raiseIllegal_changes_only_err errIllegalOp s rest hidle⟩

/-- Settles O12: such an `OP` is neither reserved nor a burst, so the length check asks for `NM1 = 0`, and its error writes
only `ERR`. -/
theorem nonzeroNm1RaisesIllegalLen : Obligations.NonzeroNm1RaisesIllegalLen := by
  intro s r rest hidle hag hop hnm1
  have hplain : ∀ op ∈ [0x1#4, 0x2#4, 0x4#4, 0x6#4, 0x7#4, 0x8#4, 0x9#4, 0xA#4, 0xB#4],
      reservedOp op = false ∧ burstOp op = false := by decide
  obtain ⟨hres, hburst⟩ := hplain _ hop
  have hlen : lenWrong Config.maxBurst r.cmd = true :=
    (lenWrong_of_not_burstOp hburst _).trans (decide_eq_true hnm1)
  have hdec : decodeCommand r = .error .illegalLen := decodeCommandFor_lenWrong hres hlen
  exact ⟨_, step_illegal_command hidle hag hdec, raiseIllegal_changes_only_err errIllegalLen s rest hidle⟩

/-- Settles O8: each pseudo-instruction is defined as the command of R67. -/
theorem pseudoInstructionsExpand : Obligations.PseudoInstructionsExpand :=
  fun _ _ _ => ⟨rfl, rfl, rfl⟩

end Sys2Proof.Machine
end

