-- ==== Sys2Proof/Proofs/IdCodec.lean ====
section
/-! SUPPORT. The codec's functions said once as numbers and by their form (41_id_codec.md R77 to R80, R87): what each byte of a
packed image is, which identifier an image unpacks to, and the laws R85, R88 and R89 that follow. -/

namespace Sys2Proof.Machine

/-! ### Fields with no bits in common -/

/-- An `|` of two fields with no bits in common is their sum (R87). -/
theorem toNat_or_eq_add {w : Nat} {a b : BitVec w} (k : Nat) (ha : 2 ^ k ∣ a.toNat) (hb : b.toNat < 2 ^ k) :
    (a ||| b).toNat = a.toNat + b.toNat := by
  obtain ⟨c, hc⟩ := ha
  rw [BitVec.toNat_or, hc, Nat.two_pow_add_eq_or_of_lt hb]

/-- A field moved up in a word that has room for it loses no bit (R87). -/
theorem toNat_setWidth_shiftLeft {v w k : Nat} (x : BitVec v) (h : v + k ≤ w) :
    (x.setWidth w <<< k).toNat = x.toNat * 2 ^ k := by
  have hfits : x.toNat * 2 ^ k < 2 ^ w :=
    calc x.toNat * 2 ^ k < 2 ^ v * 2 ^ k := Nat.mul_lt_mul_of_pos_right x.isLt (Nat.two_pow_pos k)
      _ = 2 ^ (v + k) := (Nat.pow_add 2 v k).symm
      _ ≤ 2 ^ w := Nat.pow_le_pow_right (by decide) h
  rw [BitVec.toNat_shiftLeft, BitVec.toNat_setWidth_of_le (by omega), Nat.shiftLeft_eq, Nat.mod_eq_of_lt hfits]

/-- A field of a word as a number. -/
theorem toNat_extractLsb'_eq_div_mod {w : Nat} (x : BitVec w) (start len : Nat) :
    (x.extractLsb' start len).toNat = x.toNat / 2 ^ start % 2 ^ len := by
  rw [BitVec.extractLsb'_toNat, Nat.shiftRight_eq_div_pow]

/-- Two bytes that agree under a mask agree on every field the mask keeps whole. -/
theorem extractLsb'_eq_of_and_eq {m a b : Byte} (start len : Nat) (hm : m.extractLsb' start len = BitVec.allOnes len)
    (h : a &&& m = b &&& m) : a.extractLsb' start len = b.extractLsb' start len := by
  have hcut := congrArg (BitVec.extractLsb' start len) h
  simpa only [BitVec.extractLsb'_and, hm, BitVec.and_allOnes] using hcut

/-! ### The packed image, byte by byte -/

theorem packStd_sidh_toNat (id : BitVec 11) : (packStd id).sidh.toNat = id.toNat / 8 := by
  have hid := id.isLt
  rw [packStd, toNat_extractLsb'_eq_div_mod]
  omega

theorem packStd_sidl_toNat (id : BitVec 11) : (packStd id).sidl.toNat = id.toNat % 8 * 32 := by
  rw [packStd, toNat_setWidth_shiftLeft _ (by decide), toNat_extractLsb'_eq_div_mod]
  omega

theorem packExt_sidh_toNat (id : BitVec 29) : (packExt id).sidh.toNat = id.toNat / 2 ^ 21 := by
  have hid := id.isLt
  rw [packExt, toNat_extractLsb'_eq_div_mod]
  omega

theorem packExt_sidl_toNat (id : BitVec 29) :
    (packExt id).sidl.toNat = id.toNat / 2 ^ 18 % 8 * 32 + 8 + id.toNat / 2 ^ 16 % 4 := by
  have htop : ((id.extractLsb' 18 3).setWidth 8 <<< 5).toNat = id.toNat / 2 ^ 18 % 8 * 32 := by
    rw [toNat_setWidth_shiftLeft _ (by decide), toNat_extractLsb'_eq_div_mod]
    omega
  have hflag : ((1#8) <<< Config.exidePos).toNat = 8 := rfl
  have hlow : ((id.extractLsb' 16 2).setWidth 8).toNat = id.toNat / 2 ^ 16 % 4 := by
    rw [BitVec.toNat_setWidth_of_le (by decide), toNat_extractLsb'_eq_div_mod]
    omega
  have hupper := toNat_or_eq_add 5 (a := (id.extractLsb' 18 3).setWidth 8 <<< 5) (b := (1#8) <<< Config.exidePos)
    (by omega) (by omega)
  rw [packExt, toNat_or_eq_add 2 (by omega) (by omega), hupper, htop, hflag, hlow]

theorem packExt_eid8_toNat (id : BitVec 29) : (packExt id).eid8.toNat = id.toNat / 2 ^ 8 % 2 ^ 8 :=
  toNat_extractLsb'_eq_div_mod id 8 8

theorem packExt_eid0_toNat (id : BitVec 29) : (packExt id).eid0.toNat = id.toNat % 2 ^ 8 :=
  (toNat_extractLsb'_eq_div_mod id 0 8).trans (by rw [Nat.pow_zero, Nat.div_one])

theorem exideFlag_getLsbD {k : Nat} (hk : k < 8) : ((1#8) <<< Config.exidePos).getLsbD k = decide (k = 3) := by
  have hall : ∀ i < 8, ((1#8) <<< Config.exidePos).getLsbD i = decide (i = 3) := by decide
  exact hall k hk

/-- The three fields of SIDL in an extended image, bit by bit (R78). -/
theorem packExt_sidl_getLsbD (id : BitVec 29) {k : Nat} (hk : k < 8) :
    (packExt id).sidl.getLsbD k =
      (!decide (k < 5) && id.getLsbD (18 + (k - 5)) || decide (k = 3) || decide (k < 2) && id.getLsbD (16 + k)) := by
  have htop : ((id.extractLsb' 18 3).setWidth 8 <<< 5).getLsbD k = (!decide (k < 5) && id.getLsbD (18 + (k - 5))) := by
    have hwidth : k - 5 < 8 ∧ k - 5 < 3 := by omega
    simp [hk, hwidth]
  have hlow : ((id.extractLsb' 16 2).setWidth 8).getLsbD k = (decide (k < 2) && id.getLsbD (16 + k)) := by
    simp [hk]
  rw [packExt, BitVec.getLsbD_or, BitVec.getLsbD_or, htop, exideFlag_getLsbD hk, hlow]

/-! ### The form of an image -/

/-- EXIDE as a number (R24). -/
theorem exide_eq_decide (b : Byte) : exide b = decide (b.toNat / 8 % 2 = 1) := by
  rw [exide, BitVec.getLsbD, Nat.testBit_eq_decide_div_mod_eq]
  rfl

@[simp] theorem exide_packStd (id : BitVec 11) : exide (packStd id).sidl = false := by
  rw [exide_eq_decide, packStd_sidl_toNat, decide_eq_false_iff_not]
  omega

@[simp] theorem exide_packExt (id : BitVec 29) : exide (packExt id).sidl = true := by
  rw [exide_eq_decide, packExt_sidl_toNat, decide_eq_true_iff]
  omega

theorem pack_false (id : Word32) : pack id false = packStd (id.setWidth 11) := by
  rw [BitVec.setWidth_eq_extractLsb' (by decide)]
  rfl

theorem pack_true (id : Word32) : pack id true = packExt (id.setWidth 29) := by
  rw [BitVec.setWidth_eq_extractLsb' (by decide)]
  rfl

/-- A packed image is of the form that the flag asked for (R87). -/
@[simp] theorem exide_pack (id : Word32) (x : Bool) : exide (pack id x).sidl = x := by
  cases x
  · rw [pack_false, exide_packStd]
  · rw [pack_true, exide_packExt]

/-! ### What an image unpacks to -/

theorem toNat_baseId (p : Image) : (baseId p).toNat = p.sidh.toNat * 8 + p.sidl.toNat / 32 := by
  have hsidl := p.sidl.isLt
  have hhigh : (p.sidh.setWidth 11 <<< 3).toNat = p.sidh.toNat * 8 := toNat_setWidth_shiftLeft _ (by decide)
  have hlow : ((p.sidl.extractLsb' 5 3).setWidth 11).toNat = p.sidl.toNat / 32 := by
    rw [BitVec.toNat_setWidth_of_le (by decide), toNat_extractLsb'_eq_div_mod]
    omega
  rw [baseId, toNat_or_eq_add 3 (by omega) (by omega), hhigh, hlow]

/-- The flag of `unpack` is EXIDE (R80). -/
@[simp] theorem unpack_snd (p : Image) : (unpack p).2 = exide p.sidl := by
  unfold unpack
  split
  · exact Eq.symm ‹_›
  · exact Eq.symm (Bool.eq_false_iff.2 ‹_›)

theorem unpack_fst_of_std {p : Image} (h : exide p.sidl = false) : (unpack p).1 = (baseId p).setWidth 32 := by
  simp [unpack, h]

theorem unpack_fst_of_ext {p : Image} (h : exide p.sidl = true) :
    (unpack p).1 = ((baseId p).setWidth 32 <<< 18) ||| ((p.sidl.extractLsb' 0 2).setWidth 32 <<< 16)
      ||| (p.eid8.setWidth 32 <<< 8) ||| p.eid0.setWidth 32 := by
  simp [unpack, h]

theorem toNat_unpack_of_std {p : Image} (h : exide p.sidl = false) :
    (unpack p).1.toNat = p.sidh.toNat * 8 + p.sidl.toNat / 32 := by
  rw [unpack_fst_of_std h, BitVec.toNat_setWidth_of_le (by decide), toNat_baseId]

theorem toNat_unpack_of_ext {p : Image} (h : exide p.sidl = true) :
    (unpack p).1.toNat = (p.sidh.toNat * 8 + p.sidl.toNat / 32) * 2 ^ 18 + p.sidl.toNat % 4 * 2 ^ 16
      + p.eid8.toNat * 2 ^ 8 + p.eid0.toNat := by
  have heid8Lt := p.eid8.isLt
  have heid0Lt := p.eid0.isLt
  have hbase : ((baseId p).setWidth 32 <<< 18).toNat = (baseId p).toNat * 2 ^ 18 :=
    toNat_setWidth_shiftLeft _ (by decide)
  have hlow : ((p.sidl.extractLsb' 0 2).setWidth 32 <<< 16).toNat = p.sidl.toNat % 4 * 2 ^ 16 := by
    rw [toNat_setWidth_shiftLeft _ (by decide), toNat_extractLsb'_eq_div_mod]
    omega
  have heid8 : (p.eid8.setWidth 32 <<< 8).toNat = p.eid8.toNat * 2 ^ 8 := toNat_setWidth_shiftLeft _ (by decide)
  have heid0 : (p.eid0.setWidth 32).toNat = p.eid0.toNat := BitVec.toNat_setWidth_of_le (by decide)
  have hsum18 := toNat_or_eq_add 18 (a := (baseId p).setWidth 32 <<< 18)
    (b := (p.sidl.extractLsb' 0 2).setWidth 32 <<< 16) (by omega) (by omega)
  have hsum16 := toNat_or_eq_add 16 (b := p.eid8.setWidth 32 <<< 8)
    (a := (baseId p).setWidth 32 <<< 18 ||| (p.sidl.extractLsb' 0 2).setWidth 32 <<< 16) (by omega) (by omega)
  rw [unpack_fst_of_ext h, toNat_or_eq_add 8 (by omega) (by omega), hsum16, hsum18, hbase, hlow, heid8, heid0,
    toNat_baseId]

/-! ### The round trip -/

theorem unpack_packStd (id : BitVec 11) : unpack (packStd id) = (id.setWidth 32, false) := by
  refine Prod.ext (BitVec.eq_of_toNat_eq ?_) (by simp)
  rw [toNat_unpack_of_std (exide_packStd id), packStd_sidh_toNat, packStd_sidl_toNat,
    BitVec.toNat_setWidth_of_le (by decide)]
  omega

theorem unpack_packExt (id : BitVec 29) : unpack (packExt id) = (id.setWidth 32, true) := by
  refine Prod.ext (BitVec.eq_of_toNat_eq ?_) (by simp)
  rw [toNat_unpack_of_ext (exide_packExt id), packExt_sidh_toNat, packExt_sidl_toNat, packExt_eid8_toNat,
    packExt_eid0_toNat, BitVec.toNat_setWidth_of_le (by decide)]
  omega

/-- `W(0)` keeps the low 11 bits (R85). -/
theorem toNat_and_stdMask (id : Word32) : (id &&& 0x7FF).toNat = id.toNat % 2 ^ 11 :=
  Nat.and_two_pow_sub_one_eq_mod id.toNat 11

/-- `W(1)` keeps the low 29 bits (R85). -/
theorem toNat_and_extMask (id : Word32) : (id &&& 0x1FFFFFFF).toNat = id.toNat % 2 ^ 29 :=
  Nat.and_two_pow_sub_one_eq_mod id.toNat 29

theorem unpack_pack_false (id : Word32) : unpack (pack id false) = (id &&& 0x7FF, false) := by
  rw [pack_false, unpack_packStd]
  refine Prod.ext (BitVec.eq_of_toNat_eq ?_) rfl
  rw [toNat_and_stdMask, BitVec.toNat_setWidth_of_le (by decide), BitVec.toNat_setWidth]

theorem unpack_pack_true (id : Word32) : unpack (pack id true) = (id &&& 0x1FFFFFFF, true) := by
  rw [pack_true, unpack_packExt]
  refine Prod.ext (BitVec.eq_of_toNat_eq ?_) rfl
  rw [toNat_and_extMask, BitVec.toNat_setWidth_of_le (by decide), BitVec.toNat_setWidth]

/-- The round trip of a standard identifier in range (R85). -/
theorem unpack_pack_false_of_le {id : Word32} (h : id.toNat ≤ 0x7FF) : unpack (pack id false) = (id, false) := by
  rw [unpack_pack_false]
  refine Prod.ext (BitVec.eq_of_toNat_eq ?_) rfl
  rw [toNat_and_stdMask, Nat.mod_eq_of_lt (by omega)]

/-- The round trip of an extended identifier in range (R85). -/
theorem unpack_pack_true_of_le {id : Word32} (h : id.toNat ≤ 0x1FFFFFFF) : unpack (pack id true) = (id, true) := by
  rw [unpack_pack_true]
  refine Prod.ext (BitVec.eq_of_toNat_eq ?_) rfl
  rw [toNat_and_extMask, Nat.mod_eq_of_lt (by omega)]

/-! ### The two forms of one base -/

/-- The extended identifier `s << 18` packs as the standard identifier `s` does, with EXIDE set (R88). -/
theorem packExt_shiftLeft_eq (s : BitVec 11) :
    packExt (s.setWidth 29 <<< 18) = { packStd s with sidl := (packStd s).sidl ||| 0x08 } := by
  have hshift : (s.setWidth 29 <<< 18).toNat = s.toNat * 2 ^ 18 := toNat_setWidth_shiftLeft s (by decide)
  have hsidl : ((packStd s).sidl ||| 0x08).toNat = s.toNat % 8 * 32 + 8 := by
    rw [toNat_or_eq_add 5 (by rw [packStd_sidl_toNat]; omega) (by decide), packStd_sidl_toNat]
    rfl
  rw [Image.mk.injEq]
  refine ⟨BitVec.eq_of_toNat_eq ?_, BitVec.eq_of_toNat_eq ?_, BitVec.eq_of_toNat_eq ?_, BitVec.eq_of_toNat_eq ?_⟩
  · rw [packExt_sidh_toNat, packStd_sidh_toNat, hshift]
    omega
  · rw [packExt_sidl_toNat, hsidl, hshift]
    omega
  · rw [packExt_eid8_toNat, hshift]
    change s.toNat * 2 ^ 18 / 2 ^ 8 % 2 ^ 8 = 0
    omega
  · rw [packExt_eid0_toNat, hshift]
    change s.toNat * 2 ^ 18 % 2 ^ 8 = 0
    omega

/-! ### The statements -/

/-- Settles O52: each form is packed from the identifier cut to its width. -/
theorem packUsesOnlyTheFormsBits : Obligations.PackUsesOnlyTheFormsBits := by
  have hstd : ∀ id : Word32, pack id false = packStd (BitVec.ofNat 11 (id.toNat % 2 ^ 11)) := fun id => by
    rw [pack_false, ← BitVec.toNat_setWidth, BitVec.ofNat_toNat, BitVec.setWidth_eq]
  have hext : ∀ id : Word32, pack id true = packExt (BitVec.ofNat 29 (id.toNat % 2 ^ 29)) := fun id => by
    rw [pack_true, ← BitVec.toNat_setWidth, BitVec.ofNat_toNat, BitVec.setWidth_eq]
  intro id
  refine ⟨hstd id, hext id, fun other => ⟨fun h => ?_, fun h => ?_⟩⟩
  · rw [hstd, hstd, h]
  · rw [hext, hext, h]

/-- Settles O53: EXIDE is SIDL bit 3, and the fields of an image have no bits in common. -/
theorem unpackValue : Obligations.UnpackValue :=
  fun p => ⟨fun h => ⟨(unpack_snd p).trans h, toNat_unpack_of_ext h⟩,
    fun h => ⟨(unpack_snd p).trans h, toNat_unpack_of_std h⟩⟩

/-- Settles O54: what the two forms of an image hold, in the fields that `unpack` reads. -/
theorem unpackPackRoundTrip : Obligations.UnpackPackRoundTrip := by
  refine ⟨fun _ => unpack_pack_false_of_le, fun _ => unpack_pack_true_of_le, fun id x => ?_⟩
  cases x
  · exact unpack_pack_false id
  · exact unpack_pack_true id

/-- Settles O56: the masks keep whole every field that `unpack` reads in each form. -/
theorem unpackIgnoresTheNamedBits : Obligations.UnpackIgnoresTheNamedBits := by
  intro p q hsidh hform
  have hflag : (unpack p).2 = (unpack q).2 := (unpack_snd p).trans (hform.trans (unpack_snd q).symm)
  refine ⟨fun hstd hmask => Prod.ext ?_ hflag, fun hext hmask heid8 heid0 => Prod.ext ?_ hflag⟩
  · have hbase := extractLsb'_eq_of_and_eq 5 3 (by decide) hmask
    rw [unpack_fst_of_std hstd, unpack_fst_of_std (hform.symm.trans hstd), baseId, baseId, hsidh, hbase]
  · have hbase := extractLsb'_eq_of_and_eq 5 3 (by decide) hmask
    have hlow := extractLsb'_eq_of_and_eq 0 2 (by decide) hmask
    rw [unpack_fst_of_ext hext, unpack_fst_of_ext (hform.symm.trans hext), baseId, baseId, hsidh, hbase, hlow, heid8, heid0]

/-- Settles O57: EXIDE tells the forms apart, the round trip makes `pack` injective, and a shift by 18 leaves the base. -/
theorem standardAndExtendedImagesNeverCoincide : Obligations.StandardAndExtendedImagesNeverCoincide := by
  refine ⟨fun a => ⟨exide_pack a false, exide_pack a true⟩, fun a b h => ?_, fun a b ha hb h => ?_,
    fun a b ha hb h => ?_, fun a ha => ?_, by decide, by decide⟩
  · have hflag : exide (pack a false).sidl = exide (pack b true).sidl := by rw [h]
    simp at hflag
  · have hback := congrArg unpack h
    rw [unpack_pack_false_of_le ha, unpack_pack_false_of_le hb] at hback
    exact congrArg Prod.fst hback
  · have hback := congrArg unpack h
    rw [unpack_pack_true_of_le ha, unpack_pack_true_of_le hb] at hback
    exact congrArg Prod.fst hback
  · have hcut : (a <<< 18).setWidth 29 = (a.setWidth 11).setWidth 29 <<< 18 := by
      apply BitVec.eq_of_toNat_eq
      rw [toNat_setWidth_shiftLeft _ (by decide), BitVec.toNat_setWidth, BitVec.toNat_setWidth, BitVec.toNat_shiftLeft,
        Nat.shiftLeft_eq]
      omega
    rw [pack_true, pack_false, hcut, packExt_shiftLeft_eq]

/-- Settles O50: the layout of R18, field by field. -/
theorem packStdBitLayout : Obligations.PackStdBitLayout := by
  intro id
  refine ⟨fun k hk => ?_, fun k hk => ?_, fun k hk => ?_, rfl, rfl⟩
  · simp [packStd, hk, Nat.add_comm]
  · have hbyte : k + 5 < 8 := by omega
    simp [packStd, hk, hbyte]
  · simp [packStd, hk]

/-- Settles O51: the layout of R19, field by field. -/
theorem packExtBitLayout : Obligations.PackExtBitLayout := by
  intro id
  refine ⟨fun k hk => ?_, fun k hk => ?_, ?_, exide_packExt id, ?_, fun k hk => ?_, fun k hk => ?_, fun k hk => ?_⟩
  · simp [packExt, hk, Nat.add_comm]
  · have hother : k + 5 ≠ 3 ∧ ¬ k + 5 < 2 := by omega
    simp [packExt_sidl_getLsbD id (show k + 5 < 8 by omega), hother, Nat.add_comm]
  · rw [packExt_sidl_getLsbD id (by decide)]
    rfl
  · rw [packExt_sidl_getLsbD id (by decide)]
    rfl
  · have hother : k ≠ 3 ∧ k < 5 := by omega
    simp [packExt_sidl_getLsbD id (show k < 8 by omega), hother, hk, Nat.add_comm]
  · simp [packExt, hk, Nat.add_comm]
  · simp [packExt, hk]

end Sys2Proof.Machine
end

