-- ==== Sys2Proof/Proofs/Reset.lean ====
section
/-! SUPPORT. A step that takes up what decodes (70_reset_and_hazards.md R104, R69), and the power-on column of R27. -/

namespace Sys2Proof.Machine

/-- What is presented and decodes runs as its instruction when nothing holds it (R69). -/
theorem step_present_decoded {s : State} {p : Presented} {rest : List Event} {i : Instr} (hidle : s.phase = .idle)
    (hag : s.agenda = .present p :: rest) (hdec : decode p = .ok i) : step s = exec i (s.withAgenda rest) := by
  rw [step_present_idle hidle hag, runPresented, hdec]

/-- Nothing is to happen at power-on (log entry 1), so taking the only event off gives the power-on state back. -/
theorem reset_withAgenda_withAgenda_nil (l : List Event) : (State.reset.withAgenda l).withAgenda [] = State.reset := rfl

/-- Every byte of `RDATA` is `NONE` at power-on (R27). -/
theorem reset_rdata_getElem (i : Fin 16) : State.reset.rdata[i] = none :=
  Vector.getElem_replicate i.isLt

/-- Settles O24: the values are those of R27's power-on column, and `PHASE = IDLE` holds nothing back. -/
theorem powerOnState : Obligations.PowerOnState := by
  refine ⟨rfl, rfl, reset_rdata_getElem, rfl, rfl, rfl, rfl, rfl, fun r i hdec => ?_⟩
  have hidle : (State.reset.withAgenda [.present (.command r)]).phase = .idle := rfl
  rw [step_present_decoded hidle rfl hdec, reset_withAgenda_withAgenda_nil]

end Sys2Proof.Machine
end

