-- ==== Sys2Proof/Proofs/Decoder.lean ====
section
/-! SUPPORT. The decoder and the encoder of both levels against each other (30_encoding.md R53 to R61): what `OP` selects, the
burst length that `NM1` says, and a frame's bytes. -/

namespace Sys2Proof.Machine

open Sys2Proof.Stmt

/-! ### Command records -/

section
variable {r : CmdRecord} {n op : BitVec 4} {i : Instr}

/-- A legal `OP` without a length, with `NM1 = 0`, passes both checks (R65). -/
theorem decodeCommand_plain (hcmd : r.cmd = cmdByte 0 op) (hres : reservedOp op = false) (hburst : burstOp op = false) :
    decodeCommand r = selectCommand r := by
  refine decodeCommandFor_legal (by rw [hcmd, opField_cmdByte, hres]) ?_
  rw [lenWrong_of_not_burstOp (by rw [hcmd, opField_cmdByte, hburst]), hcmd, nm1Field_cmdByte]
  rfl

/-- Every `NM1` is a legal length, since `MAX_BURST` is 16 (R57, log entry 20). -/
theorem decodeCommand_of_burst (hop : opOf r = 3 ∨ opOf r = 5) : decodeCommand r = selectCommand r :=
  decodeCommandFor_burst_fits hop (nm1Of_lt r)

theorem opOf_of_cmdByte (hcmd : r.cmd = cmdByte n op) : opOf r = op.toNat := by
  rw [← toNat_opField, hcmd, opField_cmdByte]

theorem nm1Of_of_cmdByte (hcmd : r.cmd = cmdByte n op) : nm1Of r = n.toNat := by
  rw [← toNat_nm1Field, hcmd, nm1Field_cmdByte]

/-- `NM1` of a legal burst length says that length again (R57). -/
theorem nm1_of_burstLen {k : Nat} (hpos : 1 ≤ k) (hmax : k ≤ Config.maxBurst) : (BitVec.ofNat 4 (k - 1)).toNat + 1 = k := by
  rw [maxBurst_eq] at hmax
  rw [BitVec.toNat_ofNat]
  omega

/-- A burst's command byte with the encoder's `NM1` is decoded at that length (R57). -/
theorem nm1Of_of_burstLen {k : Nat} (hcmd : r.cmd = cmdByte (BitVec.ofNat 4 (k - 1)) op)
    (hk : burstLenOk k = true) : nm1Of r + 1 = k := by
  obtain ⟨hpos, hmax⟩ := of_decide_eq_true hk
  rw [nm1Of_of_cmdByte hcmd, nm1_of_burstLen hpos hmax]

/-- The bytes that the encoder puts first in `WDATA` are the burst (R58). -/
theorem take_wdataOf {vs : List Byte} (hmax : vs.length ≤ Config.maxBurst) : (wdataOf vs).toList.take vs.length = vs := by
  simp [wdataOf, Vector.toList, List.take_take, Nat.min_eq_left hmax]

theorem decodeCommand_readn {k : Nat} (hcmd : r.cmd = cmdByte (BitVec.ofNat 4 (k - 1)) 3) (hk : burstLenOk k = true) :
    decodeCommand r = .ok (.readn r.addr k) := by
  have hop : opOf r = 3 := opOf_of_cmdByte (op := 3) hcmd
  rw [decodeCommand_of_burst (.inl hop), selectCommand_readn hop, nm1Of_of_burstLen hcmd hk]

theorem decodeCommand_writen {k : Nat} (hcmd : r.cmd = cmdByte (BitVec.ofNat 4 (k - 1)) 5) (hk : burstLenOk k = true) :
    decodeCommand r = .ok (.writen r.addr (r.wdata.toList.take k)) := by
  have hop : opOf r = 5 := opOf_of_cmdByte (op := 5) hcmd
  rw [decodeCommand_of_burst (.inr hop), selectCommand_writen hop, nm1Of_of_burstLen hcmd hk]

/-- What decodes is the command that `OP` selects (R65). -/
theorem selectCommand_of_decodeCommand (h : decodeCommand r = .ok i) : selectCommand r = .ok i := by
  unfold decodeCommand decodeCommandFor at h
  split at h
  · cases h
  split at h
  · cases h
  · exact h

/-- What `OP` selects is well formed, since `NM1` is below 16. -/
theorem wf_of_selectCommand (h : selectCommand r = .ok i) : i.wf = true := by
  have hlt := nm1Of_lt r
  unfold selectCommand at h
  rw [burstLen_eq] at h
  split at h <;> cases h
  case h_3 => exact decide_eq_true ⟨by omega, hlt⟩
  case h_5 => exact decide_eq_true (by rw [length_take_wdata]; exact ⟨by omega, hlt⟩)
  all_goals rfl

/-- The first elements of two `WDATA` that agree up to `NM1`. -/
theorem take_wdata_congr {q : CmdRecord} {m : Nat}
    (h : ∀ (k : Nat) (hk : k < Config.maxBurst), k ≤ m → r.wdata[k] = q.wdata[k]) :
    r.wdata.toList.take (m + 1) = q.wdata.toList.take (m + 1) := by
  refine List.ext_getElem (by simp) fun k hkr hkq => ?_
  simp only [List.length_take, Vector.length_toList] at hkr
  simpa using h k (by omega) (by omega)

end

/-! ### Bus frames -/

/-- What decodes as a READ frame has an address and one dummy byte for each byte of the reply (R38, R59). -/
theorem eq_of_decodeReadFrame {bytes : List Byte} {f : BusFrame} (h : decodeReadFrame bytes = .ok f) :
    f.wf = true ∧ encodeFrame f = 0x03 :: bytes := by
  unfold decodeReadFrame at h
  split at h
  · next a d ds =>
    split at h
    · next hall =>
      cases h
      have hdummy : d :: ds = List.replicate (ds.length + 1) Config.dummy :=
        List.eq_replicate_of_mem fun b hb => of_decide_eq_true (List.all_eq_true.1 hall b hb)
      exact ⟨by simp [BusFrame.wf], by rw [encodeFrame, ← hdummy]; rfl⟩
    · cases h
  · cases h

theorem decodeReadFrame_replicate (a : Byte) (n : Nat) :
    decodeReadFrame (a :: List.replicate (n + 1) Config.dummy) = .ok (.read a (n + 1)) := by
  simp [decodeReadFrame, List.replicate_succ]

/-- The bytes of a frame tell it (R61). -/
theorem decodeFrame_encodeFrame {f : BusFrame} (hf : f.wf = true) : decodeFrame (encodeFrame f) = .ok f := by
  cases f with
  | read a n =>
    obtain ⟨k, rfl⟩ : ∃ k, n = k + 1 := ⟨n - 1, by have := of_decide_eq_true hf; omega⟩
    exact decodeReadFrame_replicate a k
  | write a vs =>
    cases vs with
    | nil => cases hf
    | cons v vs => rfl
  | reset | bitmod | rdstatus => rfl

/-- Only the bytes of a frame decode to it (R59, R60). -/
theorem eq_of_decodeFrame {mosi : List Byte} {f : BusFrame} (h : decodeFrame mosi = .ok f) :
    f.wf = true ∧ encodeFrame f = mosi := by
  unfold decodeFrame at h
  split at h
  · cases h
  next op rest =>
  split at h
  · subst_vars
    split at h <;> cases h
    exact ⟨rfl, rfl⟩
  split at h
  · subst_vars
    exact eq_of_decodeReadFrame h
  split at h
  · subst_vars
    split at h <;> cases h
    exact ⟨by simp [BusFrame.wf], rfl⟩
  split at h
  · subst_vars
    split at h <;> cases h
    exact ⟨rfl, rfl⟩
  split at h
  · subst_vars
    split at h
    · split at h <;> cases h
      subst_vars
      exact ⟨rfl, rfl⟩
    · cases h
  · cases h

theorem wf_ofFrame {f : BusFrame} (h : f.wf = true) : (Instr.ofFrame f).wf = true := by
  cases f <;> exact h

theorem decode_encodeFrame {f : BusFrame} (hf : f.wf = true) : decode (.frame (encodeFrame f)) = .ok (Instr.ofFrame f) := by
  rw [decode, decodeFrame_encodeFrame hf]
  rfl

/-- The instruction that a bus frame decodes to is the one of the frame with these bytes. -/
theorem exists_frame_of_decode {mosi : List Byte} {i : Instr} (h : decode (.frame mosi) = .ok i) :
    ∃ f : BusFrame, f.wf = true ∧ encodeFrame f = mosi ∧ i = Instr.ofFrame f := by
  cases hf : decodeFrame mosi with
  | error e =>
    rw [decode, hf] at h
    cases h
  | ok f =>
    rw [decode, hf] at h
    cases h
    obtain ⟨hwf, hbytes⟩ := eq_of_decodeFrame hf
    exact ⟨f, hwf, hbytes, rfl⟩

/-! ### The statements -/

/-- Settles O1: a burst length that `NM1` can say is decoded from it, and every other operand has a field of its own. -/
theorem decodeEncodeRoundTrip : Obligations.DecodeEncodeRoundTrip := by
  intro i hi
  cases i with
  | readn a n => exact decodeCommand_readn rfl hi
  | writen a vs =>
    rw [encode, decode, decodeCommand_writen rfl hi, take_wdataOf (of_decide_eq_true hi).2]
  | busReset => exact decode_encodeFrame (f := .reset) rfl
  | busRead a n => exact decode_encodeFrame (f := .read a n) hi
  | busWrite a vs => exact decode_encodeFrame (f := .write a vs) hi
  | busBitmod a m v => exact decode_encodeFrame (f := .bitmod a m v) rfl
  | busRdstatus => exact decode_encodeFrame (f := .rdstatus) rfl
  | reset | read | write | bitmod | rdstatus | pack | unpack | writeid | readid =>
    rw [encode, decode, decodeCommand_plain rfl rfl rfl]
    simp [selectCommand]

/-- Settles O2: `NM1 + 1` is between 1 and 16, and a frame that decodes has data. -/
theorem decodedInstructionsAreWellFormed : Obligations.DecodedInstructionsAreWellFormed := by
  intro p i h
  cases p with
  | command r => exact wf_of_selectCommand (selectCommand_of_decodeCommand h)
  | frame mosi =>
    obtain ⟨f, hwf, -, rfl⟩ := exists_frame_of_decode h
    exact wf_ofFrame hwf

/-- Settles O3: the decoder and the encoder of frames are inverse to each other. -/
theorem frameDecodesExactlyToItsBytes : Obligations.FrameDecodesExactlyToItsBytes := by
  intro mosi f
  refine ⟨eq_of_decodeFrame, fun h => ?_⟩
  obtain ⟨hwf, rfl⟩ := h
  exact decodeFrame_encodeFrame hwf

/-- Settles O6: both checks read `CMD` only, and the command that `OP` selects takes its own operands. -/
theorem unusedRecordFieldsAreIgnored : Obligations.UnusedRecordFieldsAreIgnored := by
  intro r q hcmd haddr hmask hval hwdata hid hidb
  have hselect : selectCommand r = selectCommand q := by
    simp only [selectCommand, ← hcmd, toNat_opField, burstLen_eq]
    split
    case h_2 hop | h_3 hop | h_11 hop => rw [haddr (by simp [hop])]
    case h_4 hop => rw [haddr (by simp [hop]), hval (by simp [hop])]
    case h_5 hop => rw [haddr (by simp [hop]), take_wdata_congr (hwdata hop)]
    case h_6 hop => rw [haddr (by simp [hop]), hmask hop, hval (by simp [hop])]
    case h_8 hop =>
      obtain ⟨hident, hform⟩ := hid (by simp [hop])
      rw [hident, hform]
    case h_9 hop => rw [hidb hop]
    case h_10 hop =>
      obtain ⟨hident, hform⟩ := hid (by simp [hop])
      rw [haddr (by simp [hop]), hident, hform]
    all_goals rfl
  simp only [decodeCommand, decodeCommandFor, ← hcmd, hselect]

/-- Settles O4: each sample is one row of the tables of R66 and R59. -/
theorem sampleWordsDecode : Obligations.SampleWordsDecode :=
  ⟨rfl, rfl, rfl, rfl, rfl, rfl, rfl, rfl⟩

end Sys2Proof.Machine
end

