-- ==== Sys2Proof/Proofs/Assembler.lean ====
section
/-! SUPPORT. The assembler said once by the rows of its table (30_encoding.md R66, R67): which operands each mnemonic takes, and
that an operand is taken at its number or the line is refused. -/

namespace Sys2Proof.Machine

/-! ### Operands -/

/-- A number that fits a word is that word's number. -/
theorem some_ofNat_if_le_iff {w bound n : Nat} (hbound : bound + 1 = 2 ^ w) (b : BitVec w) :
    (if n ≤ bound then some (BitVec.ofNat w n) else none) = some b ↔ n = b.toNat := by
  have hlt := b.isLt
  split
  · next hn =>
    rw [Option.some.injEq]
    refine ⟨fun h => ?_, fun h => ?_⟩
    · rw [← h, BitVec.toNat_ofNat, Nat.mod_eq_of_lt (by omega)]
    · rw [h, BitVec.ofNat_toNat, BitVec.setWidth_eq]
  · simp only [reduceCtorEq, false_iff]
    omega

theorem byteOperand_eq_some_iff (t : List Char) (b : Byte) : byteOperand t = some b ↔ readNumber t = some b.toNat := by
  rw [byteOperand, Option.bind_eq_some_iff]
  simp only [some_ofNat_if_le_iff (show 0xFF + 1 = 2 ^ 8 from rfl), exists_eq_right]

theorem idOperand_eq_some_iff (t : List Char) (id : Word32) : idOperand t = some id ↔ readNumber t = some id.toNat := by
  rw [idOperand, Option.bind_eq_some_iff]
  simp only [some_ofNat_if_le_iff (show 0xFFFFFFFF + 1 = 2 ^ 32 from rfl), exists_eq_right]

theorem countOperand_eq_some_iff (t : List Char) (n : Nat) :
    countOperand t = some n ↔ readNumber t = some n ∧ 1 ≤ n ∧ n ≤ Config.maxBurst := by
  simp [countOperand, Option.bind_eq_some_iff]

/-- `S` and `X` are no numbers. -/
theorem readNumber_of_extOperand {t : List Char} {x : Bool} (h : extOperand t = some x) : readNumber t = none := by
  unfold extOperand at h
  split at h
  · next ht => rw [ht]; rfl
  split at h
  · next ht => rw [ht]; rfl
  · cases h

/-! ### The rows of the table -/

/-- What each mnemonic takes and gives. -/
inductive Assembled : List Char → List (List Char) → Instr → Prop
  | reset : Assembled "RESET".toList [] .reset
  | read {ta a} (ha : byteOperand ta = some a) : Assembled "READ".toList [ta] (.read a)
  | readn {ta tn a n} (ha : byteOperand ta = some a) (hn : countOperand tn = some n) :
    Assembled "READN".toList [ta, tn] (.readn a n)
  | write {ta tv a v} (ha : byteOperand ta = some a) (hv : byteOperand tv = some v) :
    Assembled "WRITE".toList [ta, tv] (.write a v)
  | writen {ta tvs a vs} (ha : byteOperand ta = some a) (hvs : byteOperands tvs = some vs) (hlen : burstLenOk vs.length = true) :
    Assembled "WRITEN".toList (ta :: tvs) (.writen a vs)
  | bitmod {ta tm tv a m v} (ha : byteOperand ta = some a) (hm : byteOperand tm = some m) (hv : byteOperand tv = some v) :
    Assembled "BITMOD".toList [ta, tm, tv] (.bitmod a m v)
  | rdstatus : Assembled "RDSTATUS".toList [] .rdstatus
  | pack {ti tx id x} (hid : idOperand ti = some id) (hx : extOperand tx = some x) :
    Assembled "PACK".toList [ti, tx] (.pack id x)
  | unpack {t0 t1 t2 t3 b0 b1 b2 b3} (h0 : byteOperand t0 = some b0) (h1 : byteOperand t1 = some b1)
    (h2 : byteOperand t2 = some b2) (h3 : byteOperand t3 = some b3) :
    Assembled "UNPACK".toList [t0, t1, t2, t3] (.unpack ⟨b0, b1, b2, b3⟩)
  | writeid {ta ti tx a id x} (ha : byteOperand ta = some a) (hid : idOperand ti = some id) (hx : extOperand tx = some x) :
    Assembled "WRITEID".toList [ta, ti, tx] (.writeid a id x)
  | readid {ta a} (ha : byteOperand ta = some a) : Assembled "READID".toList [ta] (.readid a)
  | setBits {ta tm a m} (ha : byteOperand ta = some a) (hm : byteOperand tm = some m) :
    Assembled "SETBITS".toList [ta, tm] (setBits a m)
  | clearBits {ta tm a m} (ha : byteOperand ta = some a) (hm : byteOperand tm = some m) :
    Assembled "CLEARBITS".toList [ta, tm] (clearBits a m)
  | zeroRegs {ta tn a n} (ha : byteOperand ta = some a) (hn : countOperand tn = some n) :
    Assembled "ZERO".toList [ta, tn] (zeroRegs a n)

theorem assembled_of_assembleCommand {mnemonic : List Char} {ops : List (List Char)} {i : Instr}
    (h : assembleCommand mnemonic ops = some i) : Assembled mnemonic ops i := by
  unfold assembleCommand at h
  rw [ite_eq_iff] at h
  obtain ⟨rfl, h⟩ | ⟨-, h⟩ := h
  · split at h
    · cases h
      exact .reset
    · cases h
  rw [ite_eq_iff] at h
  obtain ⟨rfl, h⟩ | ⟨-, h⟩ := h
  · split at h
    · simp only [Option.map_eq_some_iff] at h
      obtain ⟨a, ha, rfl⟩ := h
      exact .read ha
    · cases h
  rw [ite_eq_iff] at h
  obtain ⟨rfl, h⟩ | ⟨-, h⟩ := h
  · split at h
    · simp only [Option.bind_eq_some_iff, Option.map_eq_some_iff] at h
      obtain ⟨a, ha, n, hn, rfl⟩ := h
      exact .readn ha hn
    · cases h
  rw [ite_eq_iff] at h
  obtain ⟨rfl, h⟩ | ⟨-, h⟩ := h
  · split at h
    · simp only [Option.bind_eq_some_iff, Option.map_eq_some_iff] at h
      obtain ⟨a, ha, v, hv, rfl⟩ := h
      exact .write ha hv
    · cases h
  rw [ite_eq_iff] at h
  obtain ⟨rfl, h⟩ | ⟨-, h⟩ := h
  · split at h
    · simp only [Option.bind_eq_some_iff, Option.ite_none_right_eq_some, Option.some.injEq] at h
      obtain ⟨a, ha, vs, hvs, hlen, rfl⟩ := h
      exact .writen ha hvs hlen
    · cases h
  rw [ite_eq_iff] at h
  obtain ⟨rfl, h⟩ | ⟨-, h⟩ := h
  · split at h
    · simp only [Option.bind_eq_some_iff, Option.map_eq_some_iff] at h
      obtain ⟨a, ha, m, hm, v, hv, rfl⟩ := h
      exact .bitmod ha hm hv
    · cases h
  rw [ite_eq_iff] at h
  obtain ⟨rfl, h⟩ | ⟨-, h⟩ := h
  · split at h
    · cases h
      exact .rdstatus
    · cases h
  rw [ite_eq_iff] at h
  obtain ⟨rfl, h⟩ | ⟨-, h⟩ := h
  · split at h
    · simp only [Option.bind_eq_some_iff, Option.map_eq_some_iff] at h
      obtain ⟨id, hid, x, hx, rfl⟩ := h
      exact .pack hid hx
    · cases h
  rw [ite_eq_iff] at h
  obtain ⟨rfl, h⟩ | ⟨-, h⟩ := h
  · split at h
    · simp only [Option.bind_eq_some_iff, Option.map_eq_some_iff] at h
      obtain ⟨b0, h0, b1, h1, b2, h2, b3, h3, rfl⟩ := h
      exact .unpack h0 h1 h2 h3
    · cases h
  rw [ite_eq_iff] at h
  obtain ⟨rfl, h⟩ | ⟨-, h⟩ := h
  · split at h
    · simp only [Option.bind_eq_some_iff, Option.map_eq_some_iff] at h
      obtain ⟨a, ha, id, hid, x, hx, rfl⟩ := h
      exact .writeid ha hid hx
    · cases h
  rw [ite_eq_iff] at h
  obtain ⟨rfl, h⟩ | ⟨-, h⟩ := h
  · split at h
    · simp only [Option.map_eq_some_iff] at h
      obtain ⟨a, ha, rfl⟩ := h
      exact .readid ha
    · cases h
  rw [ite_eq_iff] at h
  obtain ⟨rfl, h⟩ | ⟨-, h⟩ := h
  · split at h
    · simp only [Option.bind_eq_some_iff, Option.map_eq_some_iff] at h
      obtain ⟨a, ha, m, hm, rfl⟩ := h
      exact .setBits ha hm
    · cases h
  rw [ite_eq_iff] at h
  obtain ⟨rfl, h⟩ | ⟨-, h⟩ := h
  · split at h
    · simp only [Option.bind_eq_some_iff, Option.map_eq_some_iff] at h
      obtain ⟨a, ha, m, hm, rfl⟩ := h
      exact .clearBits ha hm
    · cases h
  rw [ite_eq_iff] at h
  obtain ⟨rfl, h⟩ | ⟨-, h⟩ := h
  · split at h
    · simp only [Option.bind_eq_some_iff, Option.map_eq_some_iff] at h
      obtain ⟨a, ha, n, hn, rfl⟩ := h
      exact .zeroRegs ha hn
    · cases h
  · cases h

/-! ### What the rows say of their operands -/

/-- The text is no number above the bound. -/
def readsAtMost (bound : Nat) (t : List Char) : Prop := ∀ n, readNumber t = some n → n ≤ bound

theorem readsAtMost_of_byteOperand {t : List Char} {b : Byte} (h : byteOperand t = some b) : readsAtMost 0xFF t := by
  intro n hn
  cases hn.symm.trans ((byteOperand_eq_some_iff t b).1 h)
  exact Nat.le_of_lt_succ b.isLt

theorem readsAtMost_of_idOperand {t : List Char} {id : Word32} (h : idOperand t = some id) : readsAtMost 0xFFFFFFFF t := by
  intro n hn
  cases hn.symm.trans ((idOperand_eq_some_iff t id).1 h)
  exact Nat.le_of_lt_succ id.isLt

theorem readsAtMost_of_countOperand {t : List Char} {n : Nat} (h : countOperand t = some n) : readsAtMost 0xFF t := by
  intro k hk
  obtain ⟨hn, -, hmax⟩ := (countOperand_eq_some_iff t n).1 h
  cases hk.symm.trans hn
  exact hmax.trans (by decide)

theorem readsAtMost_of_extOperand {t : List Char} {x : Bool} (h : extOperand t = some x) (bound : Nat) :
    readsAtMost bound t := by
  intro n hn
  cases (readNumber_of_extOperand h).symm.trans hn

theorem readsAtMost_of_byteOperands {ts : List (List Char)} {bs : List Byte} (h : byteOperands ts = some bs) :
    ∀ t ∈ ts, readsAtMost 0xFF t := by
  induction ts generalizing bs with
  | nil => exact nofun
  | cons t ts ih =>
    simp only [byteOperands, Option.bind_eq_some_iff, Option.map_eq_some_iff] at h
    obtain ⟨b, hb, bs', hbs, -⟩ := h
    exact List.forall_mem_cons.2 ⟨readsAtMost_of_byteOperand hb, ih hbs⟩

theorem readsAtMost_mono {t : List Char} {m n : Nat} (hmn : m ≤ n) (h : readsAtMost m t) : readsAtMost n t :=
  fun k hk => (h k hk).trans hmn

section
variable {mnemonic : List Char} {i : Instr}

/-- No operand is above its field; only `PACK` and `WRITEID` have one wider than a byte. -/
theorem Assembled.operands_fit {ops : List (List Char)} (h : Assembled mnemonic ops i) :
    (∀ t ∈ ops, readsAtMost 0xFF t) ∨
    (mnemonic = "PACK".toList ∨ mnemonic = "WRITEID".toList) ∧ ∀ t ∈ ops, readsAtMost 0xFFFFFFFF t := by
  have hbyte := @readsAtMost_of_byteOperand
  cases h with
  | reset | rdstatus => exact .inl nofun
  | read ha | readid ha => exact .inl (by simp [hbyte ha])
  | write ha hv | setBits ha hv | clearBits ha hv => exact .inl (by simp [hbyte ha, hbyte hv])
  | readn ha hn | zeroRegs ha hn => exact .inl (by simp [hbyte ha, readsAtMost_of_countOperand hn])
  | writen ha hvs => exact .inl (List.forall_mem_cons.2 ⟨hbyte ha, readsAtMost_of_byteOperands hvs⟩)
  | bitmod ha hm hv => exact .inl (by simp [hbyte ha, hbyte hm, hbyte hv])
  | unpack h0 h1 h2 h3 => exact .inl (by simp [hbyte h0, hbyte h1, hbyte h2, hbyte h3])
  | pack hid hx =>
    exact .inr ⟨.inl rfl, by simp [readsAtMost_of_idOperand hid, readsAtMost_of_extOperand hx]⟩
  | writeid ha hid hx =>
    have haddr := readsAtMost_mono (n := 0xFFFFFFFF) (by decide) (hbyte ha)
    exact .inr ⟨.inr rfl, by simp [haddr, readsAtMost_of_idOperand hid, readsAtMost_of_extOperand hx]⟩

/-- The first operand is a byte in every row but `PACK`. -/
theorem Assembled.first_operand_fits {t : List Char} {ops : List (List Char)} (h : Assembled mnemonic (t :: ops) i) :
    mnemonic = "PACK".toList ∨ readsAtMost 0xFF t := by
  cases h with
  | pack => exact .inl rfl
  | read ha | readn ha | write ha | writen ha | bitmod ha | unpack ha | writeid ha | readid ha | setBits ha | clearBits ha
    | zeroRegs ha => exact .inr (readsAtMost_of_byteOperand ha)

/-- The second operand of `READN` and `ZERO` is a burst length. -/
theorem Assembled.count_operand {a t : List Char} (h : Assembled mnemonic [a, t] i)
    (hm : mnemonic = "READN".toList ∨ mnemonic = "ZERO".toList) : ∃ n, countOperand t = some n := by
  cases h with
  | readn _ hn | zeroRegs _ hn => exact ⟨_, hn⟩
  | write | writen | pack | setBits | clearBits => exact absurd hm (by decide)

/-- A row gives a command that a record can say. -/
theorem Assembled.encodable {ops : List (List Char)} (h : Assembled mnemonic ops i) :
    i.wf = true ∧ ∃ r, encode i = .command r := by
  cases h with
  | @readn ta tn a n _ hn =>
    obtain ⟨-, hrange⟩ := (countOperand_eq_some_iff tn n).1 hn
    exact ⟨decide_eq_true hrange, _, rfl⟩
  | @zeroRegs ta tn a n _ hn =>
    obtain ⟨-, hrange⟩ := (countOperand_eq_some_iff tn n).1 hn
    exact ⟨decide_eq_true (by rwa [List.length_replicate]), _, rfl⟩
  | writen _ _ hlen => exact ⟨hlen, _, rfl⟩
  | reset | read | write | bitmod | rdstatus | pack | unpack | writeid | readid | setBits | clearBits =>
    exact ⟨rfl, _, rfl⟩

end

theorem assembleCommand_eq_none {mnemonic : List Char} {ops : List (List Char)}
    (h : ∀ i, ¬ Assembled mnemonic ops i) : assembleCommand mnemonic ops = none :=
  Option.eq_none_iff_forall_ne_some.2 fun i hi => h i (assembled_of_assembleCommand hi)

/-- A burst length outside 1 .. `MAX_BURST` is refused. -/
theorem assembleCommand_count_refused {mnemonic a t : List Char} {n : Nat}
    (hm : mnemonic = "READN".toList ∨ mnemonic = "ZERO".toList) (hread : readNumber t = some n)
    (hn : ¬(1 ≤ n ∧ n ≤ Config.maxBurst)) : assembleCommand mnemonic [a, t] = none := by
  refine assembleCommand_eq_none fun i h => ?_
  obtain ⟨k, hk⟩ := h.count_operand hm
  obtain ⟨hread', hrange⟩ := (countOperand_eq_some_iff t k).1 hk
  cases hread.symm.trans hread'
  exact hn hrange

/-- Settles O7: whatever is assembled is a row of the table, and every operand of a row fits its field. -/
theorem assembledCommandsAreWellFormed : Obligations.AssembledCommandsAreWellFormed := by
  refine ⟨fun _ _ i h => (assembled_of_assembleCommand h).encodable, byteOperand_eq_some_iff, idOperand_eq_some_iff,
    countOperand_eq_some_iff, fun mnemonic t ops n ht hread => ⟨fun hn => ?_, fun hn hpack hwriteid => ?_⟩,
    fun t ops n hread hn => ?_, fun a t n hread hn => ?_⟩
  · refine assembleCommand_eq_none fun i h => ?_
    rcases h.operands_fit with hfit | ⟨-, hfit⟩ <;> have hle := hfit t ht n hread <;> omega
  · refine assembleCommand_eq_none fun i h => ?_
    rcases h.operands_fit with hfit | ⟨hwide, -⟩
    · have hle := hfit t ht n hread
      omega
    · exact hwide.elim hpack hwriteid
  · refine assembleCommand_eq_none fun i h => ?_
    rcases h.first_operand_fits with hpack | hfit
    · exact absurd hpack (by decide)
    · have hle := hfit n hread
      omega
  · exact ⟨assembleCommand_count_refused (.inl rfl) hread hn, assembleCommand_count_refused (.inr rfl) hread hn⟩

end Sys2Proof.Machine
end

