-- ==== Sys2Proof/Proofs/StepLaws.lean ====
section
/-! SUPPORT. What an instruction leaves in each register and what it sends, said once by field, and the ways one step can
answer a next state (00_scope.md R6, R10; 40_framer.md R69; 70_reset_and_hazards.md R106). -/

namespace Sys2Proof.Machine

/-! ### What an instruction writes -/

/-- A bus row of the opcode table: a frame on its own, which is no command (log entry 7). -/
def isBusRow : Instr → Bool
  | .busReset | .busRead .. | .busWrite .. | .busBitmod .. | .busRdstatus => true
  | _ => false

/-- What the peer clocks back to an instruction; no byte where it sends no frame (R9). -/
def reply (i : Instr) (s : State) : List Byte := (frameOf i).elim [] (peerReply s)

/-- The image an instruction writes into `IDR`, by its reply (R17, R81 to R84). -/
def writtenImage : Instr → List Byte → Option Image
  | .pack id x, _ | .writeid _ id x, _ => some (pack id x)
  | .unpack p, _ => some p
  | .readid _, miso => some (replyImage miso)
  | _, _ => none

/-- The image whose identifier and flag an instruction writes into `IDOUT` and `EXTOUT` (R20, R82, R84). -/
def unpackedImage : Instr → List Byte → Option Image
  | .unpack p, _ => some p
  | .readid _, miso => some (replyImage miso)
  | _, _ => none

/-- The bytes an instruction stores into `RDATA` from element 0 on (R15, R71, R72). -/
def storedBytes : Instr → List Byte → List Byte
  | .read _, miso => [slot miso 2]
  | .readn _ n, miso => slots miso 2 n
  | _, _ => []

/-- The entry an instruction adds to `TXLOG`, if it sends a frame (R26). -/
def sentXfers (i : Instr) (s : State) : List Xfer :=
  ((frameOf i).map fun f => ⟨encodeFrame f, peerReply s f⟩).toList

theorem effect_phase (i : Instr) (s : State) :
    (effect i s).phase = if i = .reset ∨ i = .busReset then .settle else s.phase := by
  cases i <;> simp [effect, sendReset, readBody, readnBody, rdstatusBody, readidBody]

theorem effect_err (i : Instr) (s : State) : (effect i s).err = if isBusRow i then s.err else errNone := by
  cases i <;> rfl

theorem effect_rdata (i : Instr) (s : State) :
    (effect i s).rdata = storeRdata s.rdata 0 (storedBytes i (reply i s)) := by
  cases i <;> rfl

theorem effect_stat (i : Instr) (s : State) :
    (effect i s).stat = if i = .rdstatus then some (slot (reply i s) 1) else s.stat := by
  cases i <;> rfl

theorem effect_idr (i : Instr) (s : State) : (effect i s).idr = (writtenImage i (reply i s)).elim s.idr idrOf := by
  cases i <;> rfl

theorem effect_idout (i : Instr) (s : State) :
    (effect i s).idout = (unpackedImage i (reply i s)).elim s.idout fun p => some (unpack p).1 := by
  cases i <;> rfl

theorem effect_extout (i : Instr) (s : State) :
    (effect i s).extout = (unpackedImage i (reply i s)).elim s.extout fun p => some (unpack p).2 := by
  cases i <;> rfl

theorem effect_draws (i : Instr) (s : State) : (effect i s).draws = s.draws + (frameOf i).elim 0 drawCount := by
  cases i <;> rfl

theorem effect_txlog_eq (i : Instr) (s : State) : (effect i s).txlog = s.txlog ++ sentXfers i s := by
  rw [effect_txlog, sentXfers]
  cases frameOf i <;> rfl

/-- `RDATA` after a store from element 0 on (R15). -/
theorem storeRdata_zero_getElem (r : Vector (Option Byte) Config.maxBurst) (bs : List Byte) (i : Fin Config.maxBurst) :
    (storeRdata r 0 bs)[i] = if i.val < bs.length then bs[i.val]? else r[i] := by
  simpa using storeRdata_get r 0 bs i.val i.isLt

/-- Whoever unpacks an image writes it into `IDR` (R82, R84). -/
theorem writtenImage_of_unpackedImage {i : Instr} {miso : List Byte} {p : Image} (h : unpackedImage i miso = some p) :
    writtenImage i miso = some p := by
  cases i with
  | unpack | readid => exact h
  | _ => cases h

theorem mem_sentXfers {i : Instr} {s : State} {e : Xfer} (h : e ∈ sentXfers i s) :
    ∃ f, frameOf i = some f ∧ e = ⟨encodeFrame f, peerReply s f⟩ := by
  simpa [sentXfers, eq_comm] using h

theorem sentXfers_length_le (i : Instr) (s : State) : (sentXfers i s).length ≤ 1 := by
  rw [sentXfers]
  cases frameOf i <;> simp

/-- The reply stands in the entry. -/
theorem reply_eq_of_sentXfers_eq {i : Instr} {s t : State} (h : sentXfers i t = sentXfers i s) : reply i t = reply i s := by
  unfold sentXfers at h
  unfold reply
  cases hf : frameOf i with
  | none => rfl
  | some f =>
    rw [hf] at h
    simpa using h

/-- No instruction gets past the hold (R13). -/
theorem exec_settle (i : Instr) (s : State) (hsettle : s.phase = .settle) : exec i s = .next s := by
  rw [exec_eq_held, held_settle _ _ hsettle]

/-! ### How a step answers a next state -/

/-- At `IDLE` settle-elapsed changes nothing, so it is the same update in both phases (R106). -/
theorem settleElapsed_eq (s : State) : settleElapsed s = s.withPhase .idle := by
  obtain ⟨phase⟩ := s
  cases phase <;> rfl

/-- Only a volatile peer's hardware changes a register (R48, R52). -/
theorem peerChange_cases (a v : Byte) (s : State) :
    (s.hasReferencePeer ∧ peerChange a v s = s) ∨
    (s.peer = .volatile ∧ peerChange a v s = s.withPreg (s.preg.write a.toNat v)) := by
  cases hpeer : s.peer with
  | volatile => exact .inr ⟨rfl, by simp [peerChange, hpeer]⟩
  | reference pstat => exact .inl ⟨⟨pstat, hpeer⟩, by simp [peerChange, hpeer]⟩

/-- An illegal command is what `stepRaisesIllegal` finds next on the agenda (R90). -/
theorem stepRaisesIllegal_iff (s : State) :
    stepRaisesIllegal s = true ↔
      s.phase = .idle ∧ ∃ r rest e, s.agenda = .present (.command r) :: rest ∧ decodeCommand r = .error e := by
  unfold stepRaisesIllegal
  split
  · next r rest hag hidle =>
    cases hdec : decodeCommand r <;> simp [hag, hidle, hdec, Except.isOk, Except.toBool]
  · next hnot =>
    simp only [Bool.false_eq_true, false_iff]
    rintro ⟨hidle, r, rest, e, hag, -⟩
    exact hnot r rest hag hidle

/-- A command that does not decode writes one of the two codes of R90. -/
theorem rejected_of_decodeCommand {r : CmdRecord} {e : Reject} (h : decodeCommand r = .error e) (s : State) :
    ∃ code, (code = errIllegalOp ∨ code = errIllegalLen) ∧ rejected e s = .next (s.withErr code) := by
  unfold decodeCommand decodeCommandFor at h
  split at h
  · cases h
    exact ⟨_, .inl rfl, rfl⟩
  split at h
  · cases h
    exact ⟨_, .inr rfl, rfl⟩
  unfold selectCommand at h
  split at h <;> cases h
  exact ⟨_, .inl rfl, rfl⟩

/-- Bytes that are none of the five frames are refused, whichever of the three reasons says so (R64, log entry 13). -/
theorem rejected_of_decodeFrame {mosi : List Byte} {e : Reject} (h : decodeFrame mosi = .error e) (s : State) :
    rejected e s = .refused .unknownFrame := by
  unfold decodeFrame decodeReadFrame at h
  repeat' split at h
  all_goals cases h <;> rfl

/-- What becomes of a presented command or frame that nothing holds: it runs, its error is raised, or the machine stops. -/
theorem runPresented_outcome (p : Presented) (s : State) (hidle : s.phase = .idle) :
    (∃ i, decode p = .ok i ∧ runPresented p s = .next (effect i s)) ∨
    (∃ r e code, p = .command r ∧ decodeCommand r = .error e ∧ (code = errIllegalOp ∨ code = errIllegalLen) ∧
      runPresented p s = .next (s.withErr code)) ∨
    (∃ mosi e, p = .frame mosi ∧ decodeFrame mosi = .error e ∧ runPresented p s = .refused .unknownFrame) := by
  cases hdec : decode p with
  | ok i => exact .inl ⟨i, rfl, by rw [runPresented, hdec]; exact exec_idle i s hidle⟩
  | error e =>
    have hrun : runPresented p s = rejected e s := by rw [runPresented, hdec]
    cases p with
    | command r =>
      obtain ⟨code, hcode, hrej⟩ := rejected_of_decodeCommand hdec s
      exact .inr (.inl ⟨r, e, code, rfl, hdec, hcode, hrun.trans hrej⟩)
    | frame mosi =>
      cases hframe : decodeFrame mosi with
      | ok f => rw [decode, hframe] at hdec; cases hdec
      | error e' =>
        rw [decode, hframe] at hdec
        cases hdec
        exact .inr (.inr ⟨mosi, e, rfl, hframe, hrun.trans (rejected_of_decodeFrame hframe s)⟩)

/-- The next states of a step, by what happens in it. -/
inductive StepTo (s : State) : State → Prop
  /-- The settle interval elapses, or there is nothing to do; nothing presented is taken up. -/
  | elapsed (l : List Event) (hheld : s.phase = .idle → ∀ p rest, s.agenda ≠ .present p :: rest) :
    StepTo s ((s.withAgenda l).withPhase .idle)
  /-- What is presented runs. -/
  | ran {p : Presented} {rest : List Event} {i : Instr} (hidle : s.phase = .idle) (hag : s.agenda = .present p :: rest)
    (hdec : decode p = .ok i) : StepTo s (effect i (s.withAgenda rest))
  /-- An illegal command is taken up. -/
  | illegal {r : CmdRecord} {rest : List Event} {e : Reject} {code : BitVec 2} (hidle : s.phase = .idle)
    (hag : s.agenda = .present (.command r) :: rest) (hdec : decodeCommand r = .error e)
    (hcode : code = errIllegalOp ∨ code = errIllegalLen) : StepTo s ((s.withAgenda rest).withErr code)
  /-- The host reads a register that holds a value. -/
  | hostRead {r : ResultReg} {rest : List Event} {v : Word32} (hag : s.agenda = .hostRead r :: rest)
    (hval : resultReg s r = some v) : StepTo s ((s.withAgenda rest).withHostLog (s.hostLog ++ [⟨r, v⟩]))
  /-- The peer's hardware changes a register, or it is the reference peer's, which changes nothing. -/
  | peerChange {a v : Byte} {rest : List Event} {m : Memory} (hag : s.agenda = .peerChange a v :: rest)
    (hm : m = s.preg ∨ m = s.preg.write a.toNat v) : StepTo s ((s.withAgenda rest).withPreg m)

/-- Every next state of a step is one of these. -/
theorem stepTo_of_step {s t : State} (h : step s = .next t) : StepTo s t := by
  rcases step_cases s with ⟨hag, hstep⟩ | ⟨p, rest, hag, hsettle, hstep⟩ | ⟨p, rest, hag, hidle, hstep⟩ |
    ⟨r, rest, hag, hstep⟩ | ⟨rest, hag, hstep⟩ | ⟨a, v, rest, hag, hstep⟩ <;> rw [hstep] at h
  · cases h
    rw [settleElapsed_eq]
    exact .elapsed s.agenda (by simp [hag])
  · cases h
    exact .elapsed s.agenda (by simp [hsettle])
  · rcases runPresented_outcome p (s.withAgenda rest) hidle with
      ⟨i, hdec, hrun⟩ | ⟨r, e, code, rfl, hdec, hcode, hrun⟩ | ⟨mosi, e, -, -, hrun⟩ <;> rw [hrun] at h <;> cases h
    · exact .ran hidle hag hdec
    · exact .illegal hidle hag hdec hcode
  · rcases hostRead_cases r (s.withAgenda rest) with ⟨v, hval, hread⟩ | ⟨-, -, hread⟩ | ⟨-, -, hread⟩ <;>
      rw [hread] at h <;> cases h
    exact .hostRead hag hval
  · cases h
    rw [settleElapsed_eq]
    exact .elapsed rest (by simp [hag])
  · cases h
    rcases peerChange_cases a v (s.withAgenda rest) with ⟨-, hchange⟩ | ⟨-, hchange⟩ <;> rw [hchange]
    · exact .peerChange (m := s.preg) hag (.inl rfl)
    · exact .peerChange hag (.inr rfl)

end Sys2Proof.Machine
end

