-- ==== Sys2Proof/Proofs/Step.lean ====
section
/-! SUPPORT. The statements on one step: the hold and the checks of a presented command (30_encoding.md R65), the settle
interval (70_reset_and_hazards.md R106), where a step stops, the host's reads (10_state.md R22, R23), and the peer's hardware
(20_memory.md R48). -/

namespace Sys2Proof.Machine

open Sys2Proof.Stmt

/-! ### Presented commands and frames -/

/-- Settles O9: the decoded instruction is what `runPresented` runs. -/
theorem stepRunsDecodedInstruction : Obligations.StepRunsDecodedInstruction :=
  fun _ _ _ _ => step_present_decoded

/-- Settles O31: the hold comes before every instruction's effect. -/
theorem heldInstructionChangesNothing : Obligations.HeldInstructionChangesNothing := exec_settle

/-- A command is no bus row. -/
theorem isBusRow_of_decodeCommand {r : CmdRecord} {i : Instr} (h : decodeCommand r = .ok i) : isBusRow i = false := by
  have hselect := selectCommand_of_decodeCommand h
  unfold selectCommand at hselect
  split at hselect <;> cases hselect <;> rfl

/-- An accepted command leaves `ERR = 0` (R14, R69). -/
theorem effect_err_of_decodeCommand {r : CmdRecord} {i : Instr} (h : decodeCommand r = .ok i) (s : State) :
    (effect i s).err = 0 := by
  rw [effect_err, isBusRow_of_decodeCommand h]
  rfl

/-- Settles O13: every command's body is followed by `ERR <- 0`. -/
theorem acceptedCommandClearsErr : Obligations.AcceptedCommandClearsErr :=
  fun _ i s hdec hidle => ⟨effect i s, exec_idle i s hidle, effect_err_of_decodeCommand hdec s⟩

/-- Every `OP` that is not reserved selects a command (R56). -/
theorem selectCommand_ok {r : CmdRecord} (hop : ¬(opOf r = 0 ∨ 12 ≤ opOf r)) : ∃ i, selectCommand r = .ok i := by
  have hrange : 1 ≤ opOf r ∧ opOf r ≤ 11 := by omega
  rw [selectCommand, toNat_opField]
  obtain ⟨hpos, hmax⟩ := hrange
  interval_cases opOf r <;> exact ⟨_, rfl⟩

/-- The length check of R57 and R63. -/
theorem lenWrong_eq_true_iff (maxBurst : Nat) (r : CmdRecord) :
    lenWrong maxBurst r.cmd = true ↔
      (opOf r = 3 ∨ opOf r = 5) ∧ maxBurst < nm1Of r + 1 ∨ ¬(opOf r = 3 ∨ opOf r = 5) ∧ nm1Of r ≠ 0 := by
  rw [← burstOp_eq_true_iff, ← burstLen_eq, ← toNat_nm1Field]
  cases hburst : burstOp (opField r.cmd) with
  | true => simp [lenWrong_of_burstOp hburst]
  | false => simp [lenWrong_of_not_burstOp hburst, BitVec.toNat_eq]

/-- Settles O10: the hold comes before the decoder, and the decoder checks `OP` before the length. -/
theorem presentedCommandIsCheckedInOrder : Obligations.PresentedCommandIsCheckedInOrder := by
  intro s r rest hag
  refine ⟨fun hsettle => ?_, fun hidle hop => ?_, fun hidle hop hlen => ?_, fun hidle hop hlen => ?_⟩
  · simp [step, hag, hsettle, settleElapsed]
  · exact step_illegal_command hidle hag (decodeCommandFor_reserved ((reservedOp_eq_true_iff r).2 hop))
  · have hlegalOp : reservedOp (opField r.cmd) = false := by rwa [← Bool.not_eq_true, reservedOp_eq_true_iff]
    exact step_illegal_command hidle hag (decodeCommandFor_lenWrong hlegalOp ((lenWrong_eq_true_iff _ r).2 hlen))
  · have hlegalOp : reservedOp (opField r.cmd) = false := by rwa [← Bool.not_eq_true, reservedOp_eq_true_iff]
    have hlegalLen : lenWrong Config.maxBurst r.cmd = false := by
      have hlt := nm1Of_lt r
      rw [← Bool.not_eq_true, lenWrong_eq_true_iff, maxBurst_eq]
      omega
    obtain ⟨i, hselect⟩ := selectCommand_ok hop
    have hdec : decodeCommand r = .ok i := (decodeCommandFor_legal hlegalOp hlegalLen).trans hselect
    have hexec := exec_idle i (s.withAgenda rest) hidle
    exact ⟨i, _, hdec, hexec, (step_present_decoded hidle hag hdec).trans hexec, effect_err_of_decodeCommand hdec _⟩

/-- Settles O14: a command that completes writes 0, a bus frame writes nothing, and an illegal command writes its code. -/
theorem errTellsWhetherACommandWasIllegal : Obligations.ErrTellsWhetherACommandWasIllegal := by
  intro s t hstep
  rw [← Bool.not_eq_true, stepRaisesIllegal_iff]
  cases stepTo_of_step hstep with
  | elapsed l hheld =>
    refine ⟨fun _ herr => herr, fun ⟨hidle, r, rest, e, hag, _⟩ => absurd hag (hheld hidle _ _)⟩
  | ran hidle hag hdec =>
    refine ⟨fun _ herr => ?_, fun ⟨_, r, rest, e, hag', hdec'⟩ => ?_⟩
    · rw [effect_err]
      split
      · exact herr
      · rfl
    · rw [hag] at hag'
      cases hag'
      exact nomatch hdec.symm.trans hdec'
  | illegal hidle hag hdec hcode =>
    exact ⟨fun hlegal => absurd ⟨hidle, _, _, _, hag, hdec⟩ hlegal, fun _ => hcode⟩
  | hostRead hag | peerChange hag => exact ⟨fun _ herr => herr, fun ⟨_, r, rest, e, hag', _⟩ => nomatch hag.symm.trans hag'⟩

/-! ### What a step sends -/

/-- Settles O18: only what is presented runs, and an instruction sends at most its one frame. -/
theorem logGrowsByAtMostOneTransaction : Obligations.LogGrowsByAtMostOneTransaction := by
  intro s t hstep
  cases stepTo_of_step hstep with
  | @ran p rest i hidle hag =>
    refine ⟨sentXfers i (s.withAgenda rest), effect_txlog_eq i _, sentXfers_length_le _ _, fun _ => ⟨hidle, p, ?_⟩⟩
    rw [effect_agenda, hag]
    rfl
  | elapsed | illegal | hostRead | peerChange => exact ⟨[], by simp, by simp, fun h => absurd rfl h⟩

/-- The first byte of a frame is one of the five opcodes (R60). -/
theorem encodeFrame_opcode (f : BusFrame) :
    ∃ op rest, encodeFrame f = op :: rest ∧ op ∈ [0xC0#8, 0x03#8, 0x02#8, 0x05#8, 0xA0#8] := by
  cases f <;> exact ⟨_, _, rfl, by decide⟩

/-- Settles O27: what a step sends are the bytes of a frame. -/
theorem onlyFiveOpcodesReachTheBus : Obligations.OnlyFiveOpcodesReachTheBus := by
  intro s t hstep
  cases stepTo_of_step hstep with
  | @ran p rest i =>
    refine ⟨sentXfers i (s.withAgenda rest), effect_txlog_eq i _, fun e he => ?_⟩
    obtain ⟨f, -, rfl⟩ := mem_sentXfers he
    exact encodeFrame_opcode f
  | elapsed | illegal | hostRead | peerChange => exact ⟨[], by simp, fun e he => nomatch he⟩

/-! ### The host's reads -/

theorem step_hostRead_some {s : State} {r : ResultReg} {v : Word32} {rest : List Event}
    (hag : s.agenda = .hostRead r :: rest) (hval : resultReg s r = some v) :
    step s = .next ((s.withAgenda rest).withHostLog (s.hostLog ++ [⟨r, v⟩])) := by
  have hval' : resultReg (s.withAgenda rest) r = some v := hval
  simp [step, hag, hostRead, hval']

theorem step_hostRead_none {s : State} {r : ResultReg} {rest : List Event}
    (hag : s.agenda = .hostRead r :: rest) (hval : resultReg s r = none) (hr : r ≠ .err) :
    step s = .fault (.readOfNone r) := by
  have hval' : resultReg (s.withAgenda rest) r = none := hval
  simp [step, hag, hostRead, hval', hr]

theorem resultReg_rdata (s : State) (i : Fin 16) : resultReg s (.rdata i) = s.rdata[i].map (·.setWidth 32) := by
  simp [resultReg]

/-- The elements of `IDR` in the order of R17. -/
theorem idrAt_eq_getElem (r : Idr) (i : Fin 4) : idrAt r i = [r.sidh, r.sidl, r.eid8, r.eid0][i] := by
  fin_cases i <;> rfl

/-- A value padded with zeros to 32 bits is the word of the same number. -/
theorem setWidth_eq_of_toNat_eq {w : Nat} (hw : w ≤ 32) {x : BitVec w} {v : Word32} (h : v.toNat = x.toNat) :
    x.setWidth 32 = v :=
  BitVec.eq_of_toNat_eq (by rw [BitVec.toNat_setWidth_of_le hw, h])

theorem flagWord_eq_of_toNat_eq {x : Bool} {v : Word32} (h : v.toNat = x.toNat) : flagWord x = v :=
  BitVec.eq_of_toNat_eq (by rw [h]; cases x <;> rfl)

/-- Settles O20: each kind of register gives its value, padded with zeros. -/
theorem hostReadGivesTheRegister : Obligations.HostReadGivesTheRegister := by
  intro s r v rest hag hread
  refine step_hostRead_some hag ?_
  rcases hread with ⟨i, b, rfl, hb, hv⟩ | ⟨b, rfl, hb, hv⟩ | ⟨i, b, rfl, hb, hv⟩ | ⟨rfl, hb⟩ |
    ⟨x, rfl, hx, hv⟩ | ⟨rfl, herr, hv⟩
  · rw [resultReg_rdata, hb, Option.map_some, setWidth_eq_of_toNat_eq (by decide) hv]
  · rw [resultReg, hb, Option.map_some, setWidth_eq_of_toNat_eq (by decide) hv]
  · rw [resultReg, hb, Option.map_some, setWidth_eq_of_toNat_eq (by decide) hv]
  · exact hb
  · rw [resultReg, hx, Option.map_some, flagWord_eq_of_toNat_eq hv]
  · exact (if_neg herr).trans (congrArg some (setWidth_eq_of_toNat_eq (by decide) hv))

/-- Settles O21: a register without a value reads as none, and at power-on none holds one. -/
theorem hostReadOfNoneFaults : Obligations.HostReadOfNoneFaults := by
  refine ⟨fun s r rest hag hnone => ?_, fun r hr => ?_⟩
  · rcases hnone with ⟨i, rfl, h⟩ | ⟨rfl, h⟩ | ⟨i, rfl, h⟩ | ⟨rfl, h⟩ | ⟨rfl, h⟩ <;>
      refine step_hostRead_none hag ?_ nofun
    · rw [resultReg_rdata, h, Option.map_none]
    · rw [resultReg, h, Option.map_none]
    · rw [resultReg, (idrAt_wiredIdr_eq_none s.idr i).2 ((idrAt_eq_getElem _ _).trans h), Option.map_none]
    · exact h
    · rw [resultReg, h, Option.map_none]
  · refine step_hostRead_none rfl ?_ hr
    cases r with
    | rdata i =>
      rw [resultReg_rdata, State.withAgenda_rdata, reset_rdata_getElem, Option.map_none]
    | idr i => fin_cases i <;> rfl
    | err => exact absurd rfl hr
    | stat | idout | extout => rfl

/-! ### The peer's hardware -/

theorem step_peerChange {s : State} {a v : Byte} {rest : List Event} (hag : s.agenda = .peerChange a v :: rest) :
    step s = .next (peerChange a v (s.withAgenda rest)) := by
  simp [step, hag]

/-- Settles O22: a volatile peer's register is written, and the reference peer's stays. -/
theorem peerHardwareChangesOnlyPeerRegisters : Obligations.PeerHardwareChangesOnlyPeerRegisters := by
  intro s a v rest hag
  refine ⟨_, step_peerChange hag, ?_⟩
  rcases peerChange_cases a v (s.withAgenda rest) with ⟨⟨pstat, hpeer⟩, hchange⟩ | ⟨hpeer, hchange⟩ <;> rw [hchange]
  · have hpeer' : s.peer = .reference pstat := hpeer
    simp [sameResults, hpeer']
  · have hpeer' : s.peer = .volatile := hpeer
    simp +contextual [sameResults, hpeer', State.hasReferencePeer, Memory.read_write_other]

/-! ### The settle interval -/

/-- Settles O15: nothing presented is taken up, and no other event writes the block or the log. -/
theorem nothingReachesThePeerWhileSettling : Obligations.NothingReachesThePeerWhileSettling := by
  intro s t hsettle hstep
  cases stepTo_of_step hstep with
  | elapsed => simp [sameResults]
  | ran hidle | illegal hidle => exact nomatch hsettle.symm.trans hidle
  | hostRead => simp [sameResults]
  | peerChange hag => exact ⟨rfl, rfl, ⟨rfl, rfl, rfl, rfl, rfl⟩, rfl, rfl, fun hother => absurd hag (hother _ _ _)⟩

/-- Settles O16: the event is one update of `PHASE`, which at `IDLE` changes nothing. -/
theorem settleElapsedOnlySetsIdle : Obligations.SettleElapsedOnlySetsIdle := by
  intro s rest hag
  refine ⟨fun hsettle => ?_, fun hidle => ?_⟩
  · simp [step, hag, settleElapsed, hsettle]
  · simp [step, hag, settleElapsed, hidle]

/-- A host read leaves every register, and so whatever a later read gives (R23). -/
theorem resultReg_congr {s t : State} (hres : sameResults s t) (herr : t.err = s.err) (r : ResultReg) :
    resultReg t r = resultReg s r := by
  obtain ⟨hrdata, hstat, hidr, hidout, hextout⟩ := hres
  cases r <;> simp only [resultReg, hrdata, hstat, hidr, hidout, hextout, herr]

theorem run_succ (M : Host.Core) {s t : M.State} (h : M.step s = .next t) (k : Nat) : M.run (k + 1) s = M.run k t := by
  rw [Host.Core.run, h]

/-- The settle interval ends within `n + 1` steps, with no transaction made and `ERR` as it was (R106). -/
def settlesWithin (n : Nat) (s : State) : Prop :=
  ∃ (k : Nat) (t : State), k ≤ n + 1 ∧ Host.Core.run Sys2Proof.core k s = .next t ∧
    t.phase = .idle ∧ t.txlog = s.txlog ∧ t.err = s.err

/-- Settle-elapsed ends the interval at once. -/
theorem settlesWithin_of_elapsed {s u : State} (n : Nat) (h : step s = .next (u.withPhase .idle))
    (hlog : u.txlog = s.txlog) (herr : u.err = s.err) : settlesWithin n s :=
  ⟨1, u.withPhase .idle, by omega, run_succ Sys2Proof.core h 0, rfl, hlog, herr⟩

/-- A step that neither sends nor writes `ERR` delays the end by one step. -/
theorem settlesWithin_of_step {s u : State} {n : Nat} (h : step s = .next u) (hlog : u.txlog = s.txlog) (herr : u.err = s.err)
    (hu : settlesWithin n u) : settlesWithin (n + 1) s := by
  obtain ⟨k, t, hk, hrun, hidle, htlog, hterr⟩ := hu
  exact ⟨k + 1, t, by omega, (run_succ Sys2Proof.core h k).trans hrun, hidle, htlog.trans hlog, hterr.trans herr⟩

/-- Each thing to happen ends the interval or is taken off, and a host read leaves every other read's value. -/
theorem settlesWithin_agenda_length (l : List Event) (s : State) (hag : s.agenda = l) (hsettle : s.phase = .settle)
    (hreads : ∀ r, Event.hostRead r ∈ l → resultReg s r ≠ none) : settlesWithin l.length s := by
  induction l generalizing s with
  | nil => exact settlesWithin_of_elapsed (u := s) _ (by simp [step, hag, settleElapsed_eq]) rfl rfl
  | cons e rest ih =>
    have hreads' : ∀ u : State, sameResults s u → u.err = s.err →
        ∀ r, Event.hostRead r ∈ rest → resultReg u r ≠ none := by
      intro u hres herr r hr
      rw [resultReg_congr hres herr]
      exact hreads r (List.mem_cons_of_mem e hr)
    cases e with
    | present p => exact settlesWithin_of_elapsed (u := s) _ (by simp [step, hag, hsettle, settleElapsed_eq]) rfl rfl
    | settleElapsed =>
      exact settlesWithin_of_elapsed (u := s.withAgenda rest) _ (by simp [step, hag, settleElapsed_eq]) rfl rfl
    | hostRead r =>
      obtain ⟨v, hval⟩ := Option.ne_none_iff_exists'.1 (hreads r List.mem_cons_self)
      exact settlesWithin_of_step (step_hostRead_some hag hval) rfl rfl
        (ih _ rfl hsettle (hreads' _ ⟨rfl, rfl, rfl, rfl, rfl⟩ rfl))
    | peerChange a v =>
      obtain ⟨m, hchange⟩ : ∃ m, peerChange a v (s.withAgenda rest) = (s.withAgenda rest).withPreg m := by
        rcases peerChange_cases a v (s.withAgenda rest) with ⟨-, h⟩ | ⟨-, h⟩
        · exact ⟨s.preg, h⟩
        · exact ⟨_, h⟩
      exact settlesWithin_of_step ((step_peerChange hag).trans (congrArg _ hchange)) rfl rfl
        (ih _ rfl hsettle (hreads' _ ⟨rfl, rfl, rfl, rfl, rfl⟩ rfl))

/-- Settles O17: the agenda runs out. -/
theorem settleIntervalEnds : Obligations.SettleIntervalEnds :=
  fun s => settlesWithin_agenda_length s.agenda s rfl

/-- Settles O23: at `IDLE` settle-elapsed changes nothing. -/
theorem endedRunStays : Obligations.EndedRunStays := by
  intro s ⟨hag, hidle⟩
  simp [step, hag, settleElapsed, hidle]

/-! ### Where a step stops -/

/-- Settles O19: of the six forms of a step only a host read faults, and only bytes that are no frame are refused. -/
theorem stepStopsOnlyWhereNamed : Obligations.StepStopsOnlyWhereNamed := by
  intro s
  rcases step_cases s with ⟨_, hstep⟩ | ⟨_, _, _, _, hstep⟩ | ⟨p, rest, hag, hidle, hstep⟩ |
    ⟨r, rest, hag, hstep⟩ | ⟨_, _, hstep⟩ | ⟨_, _, _, _, hstep⟩ <;> rw [hstep]
  · simp
  · simp
  · rcases runPresented_outcome p (s.withAgenda rest) hidle with
      ⟨i, -, hrun⟩ | ⟨r, e, code, -, -, -, hrun⟩ | ⟨mosi, e, rfl, hdec, hrun⟩ <;> rw [hrun]
    · simp
    · simp
    · refine ⟨fun f h => (by cases h), fun q h => ?_⟩
      cases h
      refine ⟨rfl, hidle, mosi, rest, hag, fun f hf hbytes => ?_⟩
      rw [← hbytes, decodeFrame_encodeFrame hf] at hdec
      cases hdec
  · rcases hostRead_cases r (s.withAgenda rest) with
      ⟨v, -, hread⟩ | ⟨hnone, hr, hread⟩ | ⟨hnone, hr, hread⟩ <;> rw [hread]
    · simp
    · refine ⟨fun f h => ?_, fun q h => (by cases h)⟩
      cases h
      exact ⟨r, rest, hag, hnone, .inr ⟨rfl, hr⟩⟩
    · refine ⟨fun f h => ?_, fun q h => (by cases h)⟩
      cases h
      exact ⟨r, rest, hag, hnone, .inl ⟨rfl, hr⟩⟩
  · simp
  · simp

end Sys2Proof.Machine
end

