-- ==== Sys2Proof/Proofs/Invariant.lean ====
section
/-! SUPPORT. The invariant of the machine: what it asks of each register, field by field, and that every step keeps it. -/

namespace Sys2Proof.Machine

/-! ### The registers -/

theorem Idr.whole_idrOf (p : Image) : (idrOf p).whole := .inr ⟨p, rfl⟩

/-- An unpacked identifier has the width of the form it names (R20, R80). -/
theorem outputsAgree_unpack (p : Image) : outputsAgree (some (unpack p).1) (some (unpack p).2) := by
  have hsidh := p.sidh.isLt
  have hsidl := p.sidl.isLt
  have heid8 := p.eid8.isLt
  have heid0 := p.eid0.isLt
  rw [unpack_snd]
  cases hform : exide p.sidl with
  | false =>
    refine .inr (.inl ⟨_, rfl, rfl, ?_⟩)
    rw [toNat_unpack_of_std hform, Config.stdWidth]
    omega
  | true =>
    refine .inr (.inr ⟨_, rfl, rfl, ?_⟩)
    rw [toNat_unpack_of_ext hform, Config.extWidth]
    omega

/-- Storing from element 0 on keeps `RDATA` filled from its start (R15, D35). -/
theorem rdataFilledFromStart_storeRdata {r : Vector (Option Byte) Config.maxBurst} (h : rdataFilledFromStart r)
    (bs : List Byte) : rdataFilledFromStart (storeRdata r 0 bs) := by
  intro i j hij
  rw [storeRdata_zero_getElem, storeRdata_zero_getElem]
  by_cases hi : i.val < bs.length
  · simp [hi]
  · have hj : ¬ j.val < bs.length := by have : i.val ≤ j.val := hij; omega
    rw [if_neg hi, if_neg hj]
    exact h i j hij

/-- What a well-formed frame leaves in `TXLOG` (R9, R59). -/
theorem wellFormed_xfer {f : BusFrame} (hf : f.wf = true) (s : State) :
    Xfer.wellFormed ⟨encodeFrame f, peerReply s f⟩ = true := by
  simp [Xfer.wellFormed, decodeFrame_encodeFrame hf, Except.isOk, Except.toBool]

/-- Only the reset frame starts the settle interval (R70, R106). -/
theorem sentXfers_getLast?_of_reset {i : Instr} (hi : i = .reset ∨ i = .busReset) (s : State) :
    (sentXfers i s).getLast? = some ⟨[0xC0], peerReply s .reset⟩ := by
  rcases hi with rfl | rfl <;> rfl

/-! ### What keeps the invariant -/

theorem machineInv_reset : MachineInv State.reset where
  pregCanonical := rfl
  errLegal := by decide
  idrWhole := .inl rfl
  outputs := .inl ⟨rfl, rfl⟩
  outputsHaveImage := nofun
  rdataFilled := fun _ j _ hj => by rw [reset_rdata_getElem j] at hj; cases hj
  logFrames := nofun
  settleAfterReset := nofun

section
variable {s : State} (h : MachineInv s)
include h

theorem machineInv_withAgenda (l : List Event) : MachineInv (s.withAgenda l) := { h with }

theorem machineInv_withHostLog (l : List HostReading) : MachineInv (s.withHostLog l) := { h with }

theorem machineInv_withErr {code : BitVec 2} (hcode : code ≠ errReservedCode) : MachineInv (s.withErr code) :=
  { h with errLegal := hcode }

theorem machineInv_withPreg {m : Memory} (hm : m.wf = true) : MachineInv (s.withPreg m) :=
  { h with pregCanonical := hm }

theorem machineInv_withPhase_idle : MachineInv (s.withPhase .idle) := { h with settleAfterReset := nofun }

/-- A well-formed instruction that nothing holds keeps the invariant. -/
theorem machineInv_effect {i : Instr} (hi : i.wf = true) (hidle : s.phase = .idle) : MachineInv (effect i s) where
  pregCanonical := by
    rw [effect_preg]
    cases frameOf i with
    | none => exact h.pregCanonical
    | some f => exact wf_peerEffect s f h.pregCanonical
  errLegal := by
    rw [effect_err]
    split
    · exact h.errLegal
    · decide
  idrWhole := by
    rw [effect_idr]
    cases writtenImage i (reply i s) with
    | none => exact h.idrWhole
    | some p => exact Idr.whole_idrOf p
  outputs := by
    rw [effect_idout, effect_extout]
    cases unpackedImage i (reply i s) with
    | none => exact h.outputs
    | some p => exact outputsAgree_unpack p
  outputsHaveImage := by
    rw [effect_idout, effect_idr]
    cases hw : writtenImage i (reply i s) with
    | some p => exact fun _ => rfl
    | none =>
      cases hu : unpackedImage i (reply i s) with
      | some p => exact nomatch hw.symm.trans (writtenImage_of_unpackedImage hu)
      | none => exact h.outputsHaveImage
  rdataFilled := by
    rw [effect_rdata]
    exact rdataFilledFromStart_storeRdata h.rdataFilled _
  logFrames := by
    intro e he
    rw [effect_txlog_eq] at he
    rcases List.mem_append.1 he with hold | hnew
    · exact h.logFrames e hold
    · obtain ⟨f, hf, rfl⟩ := mem_sentXfers hnew
      exact wellFormed_xfer (frameOf_wf i f hi hf) s
  settleAfterReset := by
    rw [effect_phase, effect_txlog_eq, List.getLast?_append]
    split
    · next hreset => exact fun _ => ⟨_, by rw [sentXfers_getLast?_of_reset hreset]; rfl, rfl⟩
    · exact fun hsettle => nomatch hidle.symm.trans hsettle

end

/-! ### The statements -/

/-- Settles O25: nothing is written and nothing was sent at power-on. -/
theorem resetMeetsInv : Obligations.ResetMeetsInv := machineInv_reset

/-- Settles O26: whatever runs was decoded, so it is well formed, and no other form of a step writes more than one register. -/
theorem stepKeepsInv : Obligations.StepKeepsInv := by
  intro s t h hstep
  cases stepTo_of_step hstep with
  | elapsed l => exact machineInv_withPhase_idle (machineInv_withAgenda h l)
  | @ran p rest i hidle hag hdec =>
    exact machineInv_effect (machineInv_withAgenda h rest) (decodedInstructionsAreWellFormed p i hdec) hidle
  | @illegal r rest e code hidle hag hdec hcode =>
    refine machineInv_withErr (machineInv_withAgenda h rest) ?_
    rcases hcode with rfl | rfl <;> decide
  | @hostRead r rest => exact machineInv_withHostLog (machineInv_withAgenda h rest) _
  | @peerChange a v rest m hag hm =>
    refine machineInv_withPreg (machineInv_withAgenda h rest) ?_
    rcases hm with rfl | rfl
    · exact h.pregCanonical
    · exact Memory.wf_write _ _ _ h.pregCanonical

end Sys2Proof.Machine
end

