-- ==== Sys2Proof/Proofs/Independence.lean ====
section
/-! SUPPORT. What an instruction depends on and what it writes: the block never reads `TXLOG` (10_state.md R26) and sees the
peer's registers through the replies only (00_scope.md R9, R10), and each result register has its own writers. -/

namespace Sys2Proof.Machine

open Sys2Proof.Stmt

/-! ### The log -/

/-- The peer does not see the log (R26). -/
theorem peerReply_withTxlog (s : State) (l : List Xfer) : peerReply (s.withTxlog l) = peerReply s :=
  funext (peerReply_congr s (s.withTxlog l) rfl rfl (.inr rfl))

theorem reply_withTxlog (i : Instr) (s : State) (l : List Xfer) : reply i (s.withTxlog l) = reply i s := by
  rw [reply, peerReply_withTxlog, reply]

theorem sentXfers_withTxlog (i : Instr) (s : State) (l : List Xfer) : sentXfers i (s.withTxlog l) = sentXfers i s := by
  rw [sentXfers, peerReply_withTxlog, sentXfers]

theorem effect_preg_withTxlog (i : Instr) (s : State) (l : List Xfer) :
    (effect i (s.withTxlog l)).preg = (effect i s).preg := by
  rw [effect_preg, effect_preg]
  cases frameOf i with
  | none => rfl
  | some f => cases f <;> rfl

/-- An instruction adds its entry to whatever the log holds, and does the same otherwise (R26). -/
theorem effect_withTxlog (i : Instr) (s : State) (l : List Xfer) :
    effect i (s.withTxlog l) = (effect i s).withTxlog (l ++ sentXfers i s) := by
  apply State.eq_of_fields
  case h8 => rw [effect_txlog_eq, sentXfers_withTxlog]; rfl
  case h9 => exact effect_preg_withTxlog i s l
  all_goals simp [effect_phase, effect_err, effect_rdata, effect_stat, effect_idr, effect_idout, effect_extout,
    effect_draws, reply_withTxlog]

/-- Settles O28: in `SETTLE` nothing is done, and else the log only gets the instruction's own entry. -/
theorem noInstructionReadsTheLog : Obligations.NoInstructionReadsTheLog := by
  intro i s
  rcases exec_cases i s with ⟨hsettle, hexec⟩ | ⟨hidle, hexec⟩
  · refine ⟨s, [], hexec, (List.append_nil _).symm, fun l => ?_⟩
    rw [exec_settle i (s.withTxlog l) hsettle, List.append_nil]
  · refine ⟨effect i s, sentXfers i s, hexec, effect_txlog_eq i s, fun l => ?_⟩
    rw [exec_idle i (s.withTxlog l) hidle, effect_withTxlog]

/-! ### The replies -/

/-- States that agree on the block's registers, and an instruction that gets the same reply from both, agree after it. -/
theorem effect_congr {i : Instr} {s t : State} (hphase : t.phase = s.phase) (herr : t.err = s.err) (hres : sameResults s t)
    (hreply : reply i t = reply i s) :
    (effect i t).phase = (effect i s).phase ∧ (effect i t).err = (effect i s).err ∧ sameResults (effect i s) (effect i t) := by
  obtain ⟨hrdata, hstat, hidr, hidout, hextout⟩ := hres
  simp [sameResults, effect_phase, effect_err, effect_rdata, effect_stat, effect_idr, effect_idout, effect_extout, hreply,
    hphase, herr, hrdata, hstat, hidr, hidout, hextout]

/-- Settles O29: the entries added to equal logs are equal, so the replies are, and the block sees no more. -/
theorem blockSeesThePeerOnlyThroughReplies : Obligations.BlockSeesThePeerOnlyThroughReplies := by
  intro i s m
  rcases exec_cases i s with ⟨hsettle, hexec⟩ | ⟨hidle, hexec⟩
  · exact ⟨s, s.withPreg m, hexec, exec_settle i (s.withPreg m) hsettle, fun _ => ⟨rfl, rfl, rfl, rfl, rfl, rfl, rfl⟩⟩
  · refine ⟨effect i s, effect i (s.withPreg m), hexec, exec_idle i _ hidle, fun hlog => ?_⟩
    rw [effect_txlog_eq, effect_txlog_eq] at hlog
    have hreply := reply_eq_of_sentXfers_eq (List.append_cancel_left hlog)
    exact effect_congr (s := s) (t := s.withPreg m) rfl rfl ⟨rfl, rfl, rfl, rfl, rfl⟩ hreply

/-! ### The writers of each register -/

section
variable {i : Instr} {s : State}

theorem eq_rdstatus_of_stat_ne (h : (effect i s).stat ≠ s.stat) : i = .rdstatus := by
  rw [effect_stat] at h
  exact Decidable.by_contra fun hi => h (if_neg hi)

theorem reads_of_rdata_ne (h : (effect i s).rdata ≠ s.rdata) : (∃ a, i = .read a) ∨ ∃ a n, i = .readn a n := by
  rw [effect_rdata] at h
  cases i with
  | read a => exact .inl ⟨a, rfl⟩
  | readn a n => exact .inr ⟨a, n, rfl⟩
  | _ => exact absurd rfl h

theorem writes_image_of_idr_ne (h : (effect i s).idr ≠ s.idr) :
    (∃ x y, i = .pack x y) ∨ (∃ p, i = .unpack p) ∨ (∃ a x y, i = .writeid a x y) ∨ ∃ a, i = .readid a := by
  rw [effect_idr] at h
  cases i with
  | pack id x => exact .inl ⟨id, x, rfl⟩
  | unpack p => exact .inr (.inl ⟨p, rfl⟩)
  | writeid a id x => exact .inr (.inr (.inl ⟨a, id, x, rfl⟩))
  | readid a => exact .inr (.inr (.inr ⟨a, rfl⟩))
  | _ => exact absurd rfl h

theorem unpacks_of_outputs_ne (h : (effect i s).idout ≠ s.idout ∨ (effect i s).extout ≠ s.extout) :
    (∃ p, i = .unpack p) ∨ ∃ a, i = .readid a := by
  rw [effect_idout, effect_extout] at h
  cases i with
  | unpack p => exact .inl ⟨p, rfl⟩
  | readid a => exact .inr ⟨a, rfl⟩
  | _ => exact absurd h (by rintro (h | h) <;> exact h rfl)

theorem resets_of_phase_ne (h : (effect i s).phase ≠ s.phase) :
    (i = .reset ∨ i = .busReset) ∧ (effect i s).phase = .settle := by
  rw [effect_phase] at h ⊢
  split at h
  · next hi => exact ⟨hi, if_pos hi⟩
  · exact absurd rfl h

end

/-- Settles O30: a held instruction writes nothing, and each register's equation names its writers. -/
theorem onlyTheNamedCommandsWriteResults : Obligations.OnlyTheNamedCommandsWriteResults := by
  intro i s t hexec
  rcases exec_cases i s with ⟨-, h⟩ | ⟨-, h⟩ <;> cases h.symm.trans hexec
  · simp
  · exact ⟨eq_rdstatus_of_stat_ne, reads_of_rdata_ne, writes_image_of_idr_ne, unpacks_of_outputs_ne, resets_of_phase_ne⟩

end Sys2Proof.Machine
end

