-- ==== Sys2Proof/Proofs/Commands.lean ====
section
/-! SUPPORT. The effect of each instruction and its frame (40_framer.md R70 to R76, 41_id_codec.md R81 to R84, 20_memory.md R38
to R42). First what a frame does to the peer's registers and what the peer replies, then the statements. -/

namespace Sys2Proof.Machine

open Sys2Proof.Stmt

/-! ### The peer's registers after a frame -/

theorem read_resetEffect (s : State) (a : Byte) : (peerEffect s .reset).read a.toNat = some (resetImage s.peer a) :=
  Memory.read_fill _ a

/-- A burst leaves the registers it does not reach (R39). -/
theorem read_writeBurst_other {p : PeerKind} {m : Memory} {a : Byte} {vs : List Byte} {b : Nat}
    (h : ∀ k, k < vs.length → (burstAddr p a k).toNat ≠ b) : (writeBurst p m a vs).read b = m.read b := by
  induction vs generalizing m a with
  | nil => rfl
  | cons v vs ih =>
    have hrest : ∀ k, k < vs.length → (burstAddr p (addrNext p a) k).toNat ≠ b := fun k hk => by
      rw [burstAddr_next]
      exact h (k + 1) (Nat.succ_lt_succ hk)
    rw [writeBurst, ih hrest]
    exact Memory.read_write_other _ _ _ _ (h 0 (Nat.succ_pos _)).symm

/-- A burst whose addresses differ leaves its k-th byte at its k-th address (R39). -/
theorem read_writeBurst {p : PeerKind} {m : Memory} {a : Byte} {vs : List Byte}
    (hdistinct : ∀ j k, j < k → k < vs.length → burstAddr p a j ≠ burstAddr p a k) {k : Nat} (hk : k < vs.length) :
    (writeBurst p m a vs).read (burstAddr p a k).toNat = vs[k]? := by
  induction vs generalizing m a k with
  | nil => exact absurd hk (Nat.not_lt_zero k)
  | cons v vs ih =>
    cases k with
    | zero =>
      have hrest : ∀ j, j < vs.length → (burstAddr p (addrNext p a) j).toNat ≠ a.toNat := fun j hj hj' => by
        rw [burstAddr_next] at hj'
        exact hdistinct 0 (j + 1) (Nat.succ_pos j) (Nat.succ_lt_succ hj) (BitVec.eq_of_toNat_eq hj'.symm)
      exact (read_writeBurst_other hrest).trans (Memory.read_write_same _ _ _)
    | succ k =>
      rw [← burstAddr_next, List.getElem?_cons_succ]
      refine ih (fun j l hjl hl => ?_) (Nat.lt_of_succ_lt_succ hk)
      rw [burstAddr_next, burstAddr_next]
      exact hdistinct (j + 1) (l + 1) (Nat.succ_lt_succ hjl) (Nat.succ_lt_succ hl)

/-- A burst of `n` bytes from `a` counts up: it ends below the top of the address space, or the reference peer wraps. -/
def countsUp (p : PeerKind) (a : Byte) (n : Nat) : Prop :=
  a.toNat + n ≤ 256 ∨ (∃ pstat, p = .reference pstat) ∧ n ≤ 256

section
variable {p : PeerKind} {a : Byte} {n k : Nat}

theorem burstAddr_of_countsUp (h : countsUp p a n) (hk : k < n) : burstAddr p a k = a + BitVec.ofNat 8 k := by
  rcases h with hfit | ⟨⟨pstat, rfl⟩, -⟩
  · refine BitVec.eq_of_toNat_eq ?_
    rw [burstAddr_toNat p a k (by omega), BitVec.toNat_add, BitVec.toNat_ofNat]
    omega
  · exact burstAddr_reference pstat a k

theorem burstAddr_ne_of_countsUp (h : countsUp p a n) {j : Nat} (hjk : j < k) (hk : k < n) :
    burstAddr p a j ≠ burstAddr p a k := by
  have hn : n ≤ 256 := by rcases h with hfit | ⟨-, hn⟩ <;> omega
  rw [burstAddr_of_countsUp h hk, burstAddr_of_countsUp h (hjk.trans hk)]
  intro heq
  have hnat := congrArg BitVec.toNat heq
  simp only [BitVec.toNat_add, BitVec.toNat_ofNat] at hnat
  omega

end

/-- What a burst that counts up leaves at its addresses (R39, R44, R52). -/
theorem read_writeBurst_of_countsUp {p : PeerKind} {a : Byte} {vs : List Byte} (h : countsUp p a vs.length) (m : Memory)
    {k : Nat} (hk : k < vs.length) : (writeBurst p m a vs).read (a + BitVec.ofNat 8 k).toNat = vs[k]? := by
  rw [← burstAddr_of_countsUp h hk]
  exact read_writeBurst (fun j l hjl hl => burstAddr_ne_of_countsUp h hjl hl) hk

/-- Below the top of the address space the k-th address is `a + k` (R44). -/
theorem read_writeBurst_of_fits {p : PeerKind} {a : Byte} {vs : List Byte} (h : a.toNat + vs.length ≤ 256) (m : Memory)
    {k : Nat} (hk : k < vs.length) : (writeBurst p m a vs).read (a.toNat + k) = vs[k]? := by
  rw [← read_writeBurst_of_countsUp (.inl h) m hk, BitVec.toNat_add, BitVec.toNat_ofNat,
    Nat.mod_eq_of_lt (a := k) (by omega), Nat.mod_eq_of_lt (by omega)]

/-- Under the mask the merge has the value's bits (R40). -/
theorem mergeMasked_and_mask (old m v : Byte) : mergeMasked old m v &&& m = v &&& m := by
  ext k hk
  cases hbit : m[k] <;> simp [mergeMasked, hbit]

/-- Where the peer masks bit-modify the bits under the mask take the value's (R40). -/
theorem bitmodByte_volatile {s : State} (hpeer : s.peer = .volatile) (a m v : Byte) :
    bitmodByte s a m v &&& m = v &&& m ∨ Config.peerBitmodOk a = false := by
  cases hok : Config.peerBitmodOk a with
  | false => exact .inr rfl
  | true =>
    refine .inl ?_
    simp only [bitmodByte, hpeer, hok, if_true, mergeMasked_and_mask]

theorem pregByte_of_read {m : Memory} {a w : Byte} (h : m.read a.toNat = some w) : pregByte m a = w := by
  rw [pregByte, h, Option.getD_some]

/-- The reference peer keeps the bits outside the mask (R52). -/
theorem bitmodByte_reference {s : State} (hpeer : s.hasReferencePeer) {a old : Byte} (hold : s.preg.read a.toNat = some old)
    (m v : Byte) : bitmodByte s a m v = mergeMasked old m v := by
  obtain ⟨pstat, hpeer⟩ := hpeer
  simp only [bitmodByte, hpeer, pregByte_of_read hold]

/-! ### The peer's replies -/

theorem noise_reference {s : State} (hpeer : s.hasReferencePeer) (k : Nat) : noise s k = 0xFF := by
  obtain ⟨pstat, hpeer⟩ := hpeer
  simp only [noise, hpeer]

/-- The reference peer returns the byte its register holds (R52). -/
theorem memRead_reference {s : State} (hpeer : s.hasReferencePeer) {a w : Byte} (h : s.preg.read a.toNat = some w) (k : Nat) :
    memRead s k a = w := by
  obtain ⟨pstat, hpeer⟩ := hpeer
  simp only [memRead, hpeer, pregByte_of_read h]

theorem burstAddr_of_hasReferencePeer {s : State} (hpeer : s.hasReferencePeer) (a : Byte) (k : Nat) :
    burstAddr s.peer a k = a + BitVec.ofNat 8 k := by
  obtain ⟨pstat, hpeer⟩ := hpeer
  rw [hpeer, burstAddr_reference]

theorem readBurst_reference {s : State} (hpeer : s.hasReferencePeer) {a w : Byte} {n k : Nat} (hk : k < n)
    (h : s.preg.read (a + BitVec.ofNat 8 k).toNat = some w) (j : Nat) : (readBurst s j a n)[k]? = some w := by
  rw [readBurst_getElem? s j a n k hk, burstAddr_of_hasReferencePeer hpeer, memRead_reference hpeer h]

theorem statusByte_volatile {s : State} (hpeer : s.peer = .volatile) :
    rx0Pending (statusByte s) = (Config.rxUnread (s.draws + 1)).getLsbD 0 ∧
    rx1Pending (statusByte s) = (Config.rxUnread (s.draws + 1)).getLsbD 1 := by
  simp only [rx0Pending, rx1Pending, statusByte, hpeer, BitVec.getLsbD_append]
  exact ⟨rfl, rfl⟩

/-- The reply bytes that READN keeps are the burst's (R72). -/
theorem slots_readReply (s : State) (a : Byte) (n : Nat) : slots (peerReply s (.read a n)) 2 n = readBurst s 2 a n := by
  simp [slots, peerReply, List.take_of_length_le]

/-! ### What every instruction leaves and sends -/

theorem sameWorld_effect (i : Instr) (s : State) : sameWorld s (effect i s) :=
  ⟨effect_peer i s, effect_agenda i s, effect_hostLog i s⟩

/-- An instruction that writes no result register, by what it stores of its reply. -/
theorem sameResults_effect {i : Instr} (s : State) (hstat : i ≠ .rdstatus) (hstored : storedBytes i (reply i s) = [])
    (himage : writtenImage i (reply i s) = none) (hunpacked : unpackedImage i (reply i s) = none) :
    sameResults s (effect i s) := by
  simp [sameResults, effect_rdata, effect_stat, effect_idr, effect_idout, effect_extout, hstat, hstored, himage, hunpacked,
    storeRdata]

theorem sentFrame_effect {i : Instr} (f : BusFrame) (s : State) (hf : frameOf i = some f) :
    sentFrame s (effect i s) (encodeFrame f) (peerReply s f) := by
  refine ⟨?_, peerReply_length s f⟩
  rw [effect_txlog_eq, sentXfers, hf]
  rfl

/-! ### RESET and the reset frame -/

theorem read_resetEffect_volatile {s : State} (hpeer : s.peer = .volatile) (a : Byte) :
    (peerEffect s .reset).read a.toNat = some (Config.peerResetImage a) := by
  rw [read_resetEffect, hpeer]
  rfl

theorem read_resetEffect_reference {s : State} (hpeer : s.hasReferencePeer) (a : Byte) :
    (peerEffect s .reset).read a.toNat = some 0x00 := by
  obtain ⟨pstat, hpeer⟩ := hpeer
  rw [read_resetEffect, hpeer]
  rfl

/-- Settles O32: the reset frame fills the peer's registers, and `PHASE` is the one register of the block it writes. -/
theorem resetEffect : Obligations.ResetEffect :=
  fun s hidle => ⟨effect .reset s, peerReply s .reset, exec_idle _ s hidle, rfl, rfl, sameResults_effect s nofun rfl rfl rfl,
    sameWorld_effect _ s, sentFrame_effect .reset s rfl, read_resetEffect_volatile, read_resetEffect_reference⟩

/-- Settles O46: the frame on its own does what RESET does, but for `ERR`. -/
theorem busResetEffect : Obligations.BusResetEffect :=
  fun s hidle => ⟨effect .busReset s, peerReply s .reset, exec_idle _ s hidle, rfl, rfl,
    sameResults_effect s nofun rfl rfl rfl, sameWorld_effect _ s, sentFrame_effect .reset s rfl, read_resetEffect_volatile,
    read_resetEffect_reference⟩

/-! ### Reads -/

/-- Settles O34: the reply is two bytes and the burst, and the burst is stored from element 0 on. -/
theorem readnEffect : Obligations.ReadnEffect := by
  intro a n s hpos hmax hidle
  refine ⟨effect (.readn a n) s, noiseFrom s 0 2, readBurst s 2 a n, exec_idle _ s hidle, hidle, rfl,
    noiseFrom_length s 0 2, readBurst_length s 2 a n, sentFrame_effect (.read a n) s rfl, fun i => ?_, rfl, rfl, rfl, rfl,
    sameWorld_effect _ s, fun _ => rfl, fun hpeer => ⟨?_, fun k hk w hw => readBurst_reference hpeer hk hw 2⟩⟩
  · have hstored : storedBytes (.readn a n) (reply (.readn a n) s) = readBurst s 2 a n := slots_readReply s a n
    rw [effect_rdata, hstored, storeRdata_zero_getElem, readBurst_length]
  · simp only [noiseFrom, noise_reference hpeer]

/-- Settles O33: `miso[2]` is the byte of the one register read, and it is stored in element 0. -/
theorem readEffect : Obligations.ReadEffect := by
  intro a s hidle
  refine ⟨effect (.read a) s, noise s 0, noise s 1, memRead s 2 a, exec_idle _ s hidle, hidle, rfl,
    sentFrame_effect (.read a 1) s rfl, fun i => ?_, rfl, rfl, rfl, rfl, sameWorld_effect _ s, fun _ => rfl,
    fun hpeer => ⟨noise_reference hpeer 0, noise_reference hpeer 1, fun w hw => memRead_reference hpeer hw 2⟩⟩
  have hstored : storedBytes (.read a) (reply (.read a) s) = [memRead s 2 a] := rfl
  rw [effect_rdata, hstored, storeRdata_zero_getElem]
  by_cases hi : i.val = 0 <;> simp [hi]

/-- Settles O40: `miso[1]` is the status byte. -/
theorem rdstatusEffect : Obligations.RdstatusEffect := by
  intro s hidle
  refine ⟨effect .rdstatus s, noise s 0, statusByte s, exec_idle _ s hidle, hidle, rfl,
    sentFrame_effect .rdstatus s rfl, rfl, rfl, rfl, rfl, rfl, sameWorld_effect _ s, fun _ => rfl, statusByte_volatile,
    fun pstat hpeer => ⟨noise_reference ⟨pstat, hpeer⟩ 0, ?_⟩⟩
  rw [statusByte, hpeer]

/-! ### Writes -/

/-- Settles O36: a burst of one byte. -/
theorem writeEffect : Obligations.WriteEffect :=
  fun a v s hidle => ⟨effect (.write a v) s, peerReply s (.write a [v]), exec_idle _ s hidle, hidle, rfl,
    sameResults_effect s nofun rfl rfl rfl, sameWorld_effect _ s, sentFrame_effect (.write a [v]) s rfl,
    Memory.read_write_same _ _ _, fun b => Memory.read_write_other _ _ b v⟩

/-- Settles O37: the burst counts up below the top, and for the reference peer across it too. -/
theorem writenEffect : Obligations.WritenEffect :=
  fun a vs s _ hmax hidle => ⟨effect (.writen a vs) s, peerReply s (.write a vs), exec_idle _ s hidle, hidle, rfl,
    sameResults_effect s nofun rfl rfl rfl, sameWorld_effect _ s, sentFrame_effect (.write a vs) s rfl,
    fun hfit _ hk => read_writeBurst_of_fits hfit s.preg hk,
    fun hpeer _ hk => read_writeBurst_of_countsUp (.inr ⟨hpeer, hmax.trans (by decide)⟩) s.preg hk,
    fun _ hother => read_writeBurst_other hother⟩

/-- Settles O38: one register gets the byte that bit-modify leaves. -/
theorem bitmodEffect : Obligations.BitmodEffect :=
  fun a m v s hidle => ⟨effect (.bitmod a m v) s, peerReply s (.bitmod a m v), bitmodByte s a m v, exec_idle _ s hidle, hidle,
    rfl, sameResults_effect s nofun rfl rfl rfl, sameWorld_effect _ s, sentFrame_effect (.bitmod a m v) s rfl,
    Memory.read_write_same _ _ _, fun hpeer => bitmodByte_volatile hpeer a m v,
    fun hpeer _ hold => bitmodByte_reference hpeer hold m v, fun b => Memory.read_write_other _ _ b _⟩

theorem mergeMasked_allOnes (old v : Byte) : mergeMasked old 0xFF v = v := by
  have hall : (0xFF : Byte) = BitVec.allOnes 8 := rfl
  rw [mergeMasked, hall, BitVec.not_allOnes, BitVec.and_zero, BitVec.zero_or, BitVec.and_allOnes]

theorem mergeMasked_zero (old v : Byte) : mergeMasked old 0x00 v = old := by
  have hall : ~~~(0x00 : Byte) = BitVec.allOnes 8 := rfl
  have hzero : (0x00 : Byte) = 0#8 := rfl
  rw [mergeMasked, hall, hzero, BitVec.and_zero, BitVec.or_zero, BitVec.and_allOnes]

/-- Settles O39: the merge takes every bit of the value or of the old byte. -/
theorem bitmodMaskCorners : Obligations.BitmodMaskCorners := by
  intro a v old s hidle hpeer hold
  refine ⟨effect (.bitmod a 0xFF v) s, effect (.write a v) s, effect (.bitmod a 0x00 v) s, exec_idle _ s hidle,
    exec_idle _ s hidle, exec_idle _ s hidle, ?_, fun b => ?_⟩
  · change s.preg.write a.toNat (bitmodByte s a 0xFF v) = s.preg.write a.toNat v
    rw [bitmodByte_reference hpeer hold, mergeMasked_allOnes]
  · change (s.preg.write a.toNat (bitmodByte s a 0x00 v)).read b = s.preg.read b
    rw [bitmodByte_reference hpeer hold, mergeMasked_zero]
    by_cases hb : b = a.toNat
    · rw [hb, Memory.read_write_same, hold]
    · exact Memory.read_write_other _ _ _ _ hb

/-! ### Bus rows -/

/-- Settles O45: each row is the one transaction of its frame. -/
theorem busFrameEffect : Obligations.BusFrameEffect := by
  refine ⟨fun a n s _ hidle => ?_, fun s hidle => ?_, fun a vs s _ hidle => ?_, fun a m v s hidle => ?_⟩
  · exact ⟨effect (.busRead a n) s, _, exec_idle _ s hidle, hidle, rfl, sameResults_effect s nofun rfl rfl rfl,
      sameWorld_effect _ s, sentFrame_effect (.read a n) s rfl, fun _ => rfl⟩
  · exact ⟨effect .busRdstatus s, _, exec_idle _ s hidle, hidle, rfl, sameResults_effect s nofun rfl rfl rfl,
      sameWorld_effect _ s, sentFrame_effect .rdstatus s rfl, fun _ => rfl⟩
  · exact ⟨effect (.busWrite a vs) s, _, exec_idle _ s hidle, hidle, rfl, sameResults_effect s nofun rfl rfl rfl,
      sameWorld_effect _ s, sentFrame_effect (.write a vs) s rfl, fun hfit _ hk => read_writeBurst_of_fits hfit s.preg hk,
      fun _ hother => read_writeBurst_other hother⟩
  · exact ⟨effect (.busBitmod a m v) s, _, bitmodByte s a m v, exec_idle _ s hidle, hidle, rfl,
      sameResults_effect s nofun rfl rfl rfl, sameWorld_effect _ s, sentFrame_effect (.bitmod a m v) s rfl,
      Memory.read_write_same _ _ _, fun hpeer _ hold => bitmodByte_reference hpeer hold m v,
      fun b => Memory.read_write_other _ _ b _⟩

/-- Settles O47: a row and its command share their frame, and the command then writes `ERR` and its result register. -/
theorem busFrameActsLikeItsCommand : Obligations.BusFrameActsLikeItsCommand := by
  intro a m v vs n s hidle
  have hexec : ∀ i, exec i s = .next (effect i s) := fun i => exec_idle i s hidle
  exact ⟨⟨_, hexec _, hexec _⟩, ⟨_, hexec _, hexec _⟩, ⟨_, hexec _, hexec _⟩, ⟨_, hexec _, hexec _⟩, ⟨_, hexec _, hexec _⟩⟩

/-- Settles O35: a burst of one has the single command's frame and stores the same byte. -/
theorem burstOfOneIsTheSingleCommand : Obligations.BurstOfOneIsTheSingleCommand :=
  fun _ _ _ => ⟨rfl, rfl⟩

/-! ### Codec commands -/

/-- Settles O41: the body of PACK is one register update. -/
theorem packEffect : Obligations.PackEffect := fun _ _ s hidle => exec_idle _ s hidle

/-- Settles O42: the body of UNPACK is the update of `IDR` and of its outputs. -/
theorem unpackEffect : Obligations.UnpackEffect := fun _ s hidle => exec_idle _ s hidle

/-- Settles O43: the image is a burst of four bytes. -/
theorem writeidEffect : Obligations.WriteidEffect := by
  intro a id x s hidle
  refine ⟨effect (.writeid a id x) s, _, exec_idle _ s hidle, hidle, rfl, rfl, rfl, rfl, rfl, rfl, sameWorld_effect _ s,
    sentFrame_effect (.write a (imageBytes (pack id x))) s rfl, fun hup => ?_, fun b hother => ?_⟩
  · have hcounts : countsUp s.peer a (imageBytes (pack id x)).length := by
      rcases hup with hfit | hpeer
      · exact .inl (by change a.toNat + 4 ≤ 256; omega)
      · exact .inr ⟨hpeer, by change 4 ≤ 256; omega⟩
    have hread : ∀ k, k < 4 → (effect (.writeid a id x) s).preg.read (a + BitVec.ofNat 8 k).toNat =
        (imageBytes (pack id x))[k]? := fun k hk => read_writeBurst_of_countsUp hcounts s.preg hk
    have hsidh := hread 0 (by decide)
    rw [BitVec.add_zero] at hsidh
    exact ⟨hsidh, hread 1 (by decide), hread 2 (by decide), hread 3 (by decide)⟩
  · exact read_writeBurst_other hother

/-- The image in a READID reply, by the registers read (R84). -/
theorem replyImage_reference {s : State} (hpeer : s.hasReferencePeer) {a : Byte} {q : Image}
    (hsidh : s.preg.read a.toNat = some q.sidh) (hsidl : s.preg.read (a + 1).toNat = some q.sidl)
    (heid8 : s.preg.read (a + 2).toNat = some q.eid8) (heid0 : s.preg.read (a + 3).toNat = some q.eid0) :
    replyImage (peerReply s (.read a 4)) = q := by
  have hslot : ∀ j k w, s.preg.read (a + BitVec.ofNat 8 k).toNat = some w → memRead s j (burstAddr s.peer a k) = w := by
    intro j k w hw
    rw [burstAddr_of_hasReferencePeer hpeer, memRead_reference hpeer hw]
  change Image.mk (memRead s 2 a) (memRead s 3 (burstAddr s.peer a 1)) (memRead s 4 (burstAddr s.peer a 2))
    (memRead s 5 (burstAddr s.peer a 3)) = q
  rw [memRead_reference hpeer hsidh, hslot 3 1 _ hsidl, hslot 4 2 _ heid8, hslot 5 3 _ heid0]

/-- Settles O44: the image is in the reply's slots 2 to 5, and `IDOUT` and `EXTOUT` are unpacked from it. -/
theorem readidEffect : Obligations.ReadidEffect :=
  fun a s hidle => ⟨effect (.readid a) s, noise s 0, noise s 1, replyImage (peerReply s (.read a 4)), exec_idle _ s hidle, hidle,
    rfl, sentFrame_effect (.read a 4) s rfl, rfl, rfl, rfl, rfl, rfl, sameWorld_effect _ s, fun _ => rfl,
    fun hpeer _ hsidh hsidl heid8 heid0 => replyImage_reference hpeer hsidh hsidl heid8 heid0⟩

end Sys2Proof.Machine
end

