-- ==== Sys2Proof/Proofs/ReferencePeer.lean ====
section
/-! SUPPORT. What the reference peer gives back of what was written to it (20_memory.md R52, 41_id_codec.md R85), from the
effects of the two commands. -/

namespace Sys2Proof.Machine

open Sys2Proof.Stmt

theorem hasReferencePeer_of_sameWorld {s t : State} (h : sameWorld s t) (hpeer : s.hasReferencePeer) : t.hasReferencePeer := by
  obtain ⟨hsame, -, -⟩ := h
  obtain ⟨pstat, hpeer⟩ := hpeer
  exact ⟨pstat, hsame.trans hpeer⟩

/-- Settles O48: the burst that WRITEN wrote is in the registers that READN then reads. -/
theorem referencePeerReadsBackWhatWasWritten : Obligations.ReferencePeerReadsBackWhatWasWritten := by
  intro a vs s hpos hmax hidle hpeer
  obtain ⟨t, -, hexec, hidle', -, -, hworld, -, -, hwritten, -⟩ := writenEffect a vs s hpos hmax hidle
  obtain ⟨u, hdr, data, hexec', -, -, -, -, -, hrdata, -, -, -, -, -, -, hread⟩ := readnEffect a vs.length t hpos hmax hidle'
  obtain ⟨-, hdata⟩ := hread (hasReferencePeer_of_sameWorld hworld hpeer)
  refine ⟨t, u, hexec, hexec', fun i hi => ?_⟩
  rw [hrdata, if_pos hi, List.getElem?_eq_getElem hi]
  exact hdata i.val hi _ ((hwritten hpeer i.val hi).trans (List.getElem?_eq_getElem hi))

/-- Settles O49: the image that WRITEID wrote is the one that READID unpacks. -/
theorem writeidThenReadidGivesTheIdentifier : Obligations.WriteidThenReadidGivesTheIdentifier := by
  intro a id x s hidle hpeer
  obtain ⟨t, -, hexec, hidle', -, -, -, -, -, -, hworld, -, hwritten, -⟩ := writeidEffect a id x s hidle
  obtain ⟨u, -, -, p, hexec', -, -, -, hidr, hidout, hextout, -, -, -, -, hread⟩ := readidEffect a t hidle'
  obtain ⟨hsidh, hsidl, heid8, heid0⟩ := hwritten (.inr hpeer)
  obtain rfl : p = pack id x :=
    hread (hasReferencePeer_of_sameWorld hworld hpeer) (pack id x) hsidh hsidl heid8 heid0
  obtain ⟨-, -, hround⟩ := unpackPackRoundTrip
  rw [hround id x] at hidout hextout
  exact ⟨t, u, hexec, hexec', hidout, hextout, hidr⟩

end Sys2Proof.Machine
end

