-- ==== Sys2Proof/Proofs/ImageRegister.lean ====
section
/-! SUPPORT. The images that `pack` gives back after `unpack` (41_id_codec.md R86), what the commands that write `IDR` leave in
it, and what the host reads of it (10_state.md R17 to R19, R23; log entry 23). -/

namespace Sys2Proof.Machine

open Sys2Proof.Stmt

/-! ### Canonical images -/

/-- The base field of SIDL as a number. -/
theorem toNat_and_baseMask (b : Byte) : (b &&& 0xE0).toNat = b.toNat / 32 * 32 := by
  revert b; decide

/-- The fields of an extended SIDL as a number (R19). -/
theorem toNat_and_extFields {b : Byte} (h : exide b = true) : (b &&& 0xEB).toNat = b.toNat / 32 * 32 + 8 + b.toNat % 4 := by
  revert b; decide

/-- Packing what a standard image unpacks to clears its ignored bits (R86). -/
theorem pack_unpack_of_std {p : Image} (h : exide p.sidl = false) :
    pack (unpack p).1 (unpack p).2 = ⟨p.sidh, p.sidl &&& 0xE0, 0, 0⟩ := by
  have hsidl := p.sidl.isLt
  have hid : ((unpack p).1.setWidth 11).toNat = p.sidh.toNat * 8 + p.sidl.toNat / 32 := by
    rw [BitVec.toNat_setWidth, toNat_unpack_of_std h]
    have := p.sidh.isLt
    omega
  rw [unpack_snd, h, pack_false, Image.mk.injEq]
  refine ⟨BitVec.eq_of_toNat_eq ?_, BitVec.eq_of_toNat_eq ?_, rfl, rfl⟩
  · rw [packStd_sidh_toNat, hid]
    omega
  · rw [packStd_sidl_toNat, hid, toNat_and_baseMask]
    omega

/-- Packing what an extended image unpacks to clears its ignored bits (R86). -/
theorem pack_unpack_of_ext {p : Image} (h : exide p.sidl = true) :
    pack (unpack p).1 (unpack p).2 = ⟨p.sidh, p.sidl &&& 0xEB, p.eid8, p.eid0⟩ := by
  have hsidl := p.sidl.isLt
  have heid8 := p.eid8.isLt
  have heid0 := p.eid0.isLt
  have hid : ((unpack p).1.setWidth 29).toNat = (p.sidh.toNat * 8 + p.sidl.toNat / 32) * 2 ^ 18 +
      p.sidl.toNat % 4 * 2 ^ 16 + p.eid8.toNat * 2 ^ 8 + p.eid0.toNat := by
    rw [BitVec.toNat_setWidth, toNat_unpack_of_ext h]
    have := p.sidh.isLt
    omega
  rw [unpack_snd, h, pack_true, Image.mk.injEq]
  refine ⟨BitVec.eq_of_toNat_eq ?_, BitVec.eq_of_toNat_eq ?_, BitVec.eq_of_toNat_eq ?_, BitVec.eq_of_toNat_eq ?_⟩
  · rw [packExt_sidh_toNat, hid]
    omega
  · rw [packExt_sidl_toNat, hid, toNat_and_extFields h]
    omega
  · rw [packExt_eid8_toNat, hid]
    omega
  · rw [packExt_eid0_toNat, hid]
    omega

/-- A standard SIDL is kept when its ignored bits are clear, and it is of no extended form. -/
theorem sidl_canonical_of_std {b : Byte} (h : exide b = false) :
    (b &&& 0xE0 = b ↔ b &&& 0x1F = 0) ∧ b &&& 0x1C ≠ 0x08 := by
  revert b; decide

/-- An extended SIDL is kept when its ignored bits are clear, and it is of no standard form. -/
theorem sidl_canonical_of_ext {b : Byte} (h : exide b = true) :
    (b &&& 0xEB = b ↔ b &&& 0x1C = 0x08) ∧ b &&& 0x1F ≠ 0 := by
  revert b; decide

/-- Settles O55: each form keeps its own fields, so an image is given back when the other bits are clear. -/
theorem canonicalImages : Obligations.CanonicalImages := by
  intro p
  refine ⟨?_, pack_unpack_of_std, pack_unpack_of_ext⟩
  cases hform : exide p.sidl with
  | false =>
    obtain ⟨hkept, hother⟩ := sidl_canonical_of_std hform
    rw [pack_unpack_of_std hform, or_iff_left hother, ← hkept]
    obtain ⟨sidh, sidl, eid8, eid0⟩ := p
    rw [Image.mk.injEq, eq_comm (b := eid8), eq_comm (b := eid0), eq_self, true_and]
  | true =>
    obtain ⟨hkept, hother⟩ := sidl_canonical_of_ext hform
    rw [pack_unpack_of_ext hform, or_iff_right fun h => hother h.1, ← hkept]
    obtain ⟨sidh, sidl, eid8, eid0⟩ := p
    simp

/-! ### What the host reads of `IDR` -/

/-- SIDL as it reads: the bits of the form's table (R18, R19). -/
def wiredSidl (b : Byte) : Byte := if exide b then b &&& 0xEB else b &&& 0xE0

theorem wiredIdr_sidl (r : Idr) : (wiredIdr r).sidl = r.sidl.map wiredSidl := by
  unfold wiredIdr
  split
  · next h => rw [h]; rfl
  · next b h => split <;> simp [wiredSidl, *]

/-- The hardwired bits of SIDL, and EXIDE as it was written. -/
theorem wiredSidl_bits (b : Byte) :
    (wiredSidl b).getLsbD 4 = false ∧ (wiredSidl b).getLsbD 2 = false ∧
    ((wiredSidl b).getLsbD 3 = false → (wiredSidl b).getLsbD 1 = false ∧ (wiredSidl b).getLsbD 0 = false) ∧
    b.getLsbD 3 = (wiredSidl b).getLsbD 3 := by
  revert b; decide

/-- A standard image reads with its extended bytes zero (R18). -/
theorem wiredIdr_of_std {r : Idr} {b : Byte} (hb : r.sidl = some b) (h : exide b = false) :
    wiredIdr r = { r with sidl := some (b &&& 0xE0), eid8 := r.eid8.map fun _ => 0x00, eid0 := r.eid0.map fun _ => 0x00 } := by
  simp [wiredIdr, hb, h]

/-- A byte that reads as zero whatever was written. -/
theorem eq_zero_of_hardwired {o : Option Byte} {v : Word32}
    (h : (o.map fun _ => (0x00 : Byte)).map (·.setWidth 32) = some v) : v = 0 := by
  cases o <;> cases h
  rfl

/-- Settles O59: the host reads `wiredIdr`, whose bits are those of the form's table. -/
theorem hardwiredBitsOfIdrReadZero : Obligations.HardwiredBitsOfIdrReadZero := by
  intro s t i rest hag hstep
  have hread : step s = hostRead (.idr i) (s.withAgenda rest) := by simp [step, hag]
  rw [hread] at hstep
  rcases hostRead_cases (.idr i) (s.withAgenda rest) with ⟨v, hval, h⟩ | ⟨-, -, h⟩ | ⟨-, -, h⟩ <;>
    cases h.symm.trans hstep
  refine ⟨v, rfl, ?_, ?_⟩
  · rintro rfl
    rw [resultReg_idr1, wiredIdr_sidl, State.withAgenda_idr] at hval
    obtain ⟨w, hw, rfl⟩ := Option.map_eq_some_iff.1 hval
    obtain ⟨b, hb, rfl⟩ := Option.map_eq_some_iff.1 hw
    obtain ⟨h4, h2, hlow, hflag⟩ := wiredSidl_bits b
    have hbit : ∀ k, k < 32 → ((wiredSidl b).setWidth 32).getLsbD k = (wiredSidl b).getLsbD k := fun k hk => by
      rw [BitVec.getLsbD_setWidth, decide_eq_true hk, Bool.true_and]
    rw [hbit 4 (by decide), hbit 3 (by decide), hbit 2 (by decide), hbit 1 (by decide), hbit 0 (by decide), hb]
    exact ⟨h4, h2, hlow, congrArg some hflag⟩
  · rintro (rfl | rfl) b hb hstd
    · rw [resultReg_idr2, State.withAgenda_idr, wiredIdr_of_std hb hstd] at hval
      exact eq_zero_of_hardwired hval
    · rw [resultReg_idr3, State.withAgenda_idr, wiredIdr_of_std hb hstd] at hval
      exact eq_zero_of_hardwired hval

/-- What the host reads of an image written whole (R18, R19, R23). -/
theorem resultReg_of_idrOf {t : State} {q : Image} (h : t.idr = idrOf q) :
    resultReg t (.idr 0) = some (q.sidh.setWidth 32) ∧
    (q.sidl.getLsbD 3 = false →
      resultReg t (.idr 1) = some ((q.sidl &&& 0xE0).setWidth 32) ∧ resultReg t (.idr 2) = some 0 ∧
      resultReg t (.idr 3) = some 0) ∧
    (q.sidl.getLsbD 3 = true →
      resultReg t (.idr 1) = some ((q.sidl &&& 0xEB).setWidth 32) ∧
      resultReg t (.idr 2) = some (q.eid8.setWidth 32) ∧ resultReg t (.idr 3) = some (q.eid0.setWidth 32)) := by
  rw [resultReg_idr0, resultReg_idr1, resultReg_idr2, resultReg_idr3, h]
  rcases wiredIdr_idrOf q with ⟨hform, hwired⟩ | ⟨hform, hwired⟩ <;> rw [hwired]
  · have hbit : q.sidl.getLsbD 3 = false := hform
    rw [hbit]
    exact ⟨rfl, fun _ => ⟨rfl, rfl, rfl⟩, nofun⟩
  · have hbit : q.sidl.getLsbD 3 = true := hform
    rw [hbit]
    exact ⟨rfl, nofun, fun _ => ⟨rfl, rfl, rfl⟩⟩

/-- Settles O58: each of the four writes one image whole, and the host reads the fields of its form. -/
theorem idrAfterACommandThatWritesIt : Obligations.IdrAfterACommandThatWritesIt := by
  intro i s hidle hwrites
  have hexec := exec_idle i s hidle
  rcases hwrites with ⟨id, x, rfl⟩ | ⟨p, rfl⟩ | ⟨a, id, x, rfl⟩ | ⟨a, rfl⟩
  · refine ⟨_, pack id x, hexec, rfl, ?_, nofun, nofun, resultReg_of_idrOf rfl⟩
    rintro _ _ (h | ⟨_, h⟩) <;> cases h
    rfl
  · refine ⟨_, p, hexec, rfl, ?_, ?_, nofun, resultReg_of_idrOf rfl⟩
    · rintro _ _ (h | ⟨_, h⟩) <;> cases h
    · rintro _ h
      cases h
      rfl
  · refine ⟨_, pack id x, hexec, rfl, ?_, nofun, nofun, resultReg_of_idrOf rfl⟩
    rintro _ _ (h | ⟨_, h⟩) <;> cases h
    rfl
  · refine ⟨_, replyImage (peerReply s (.read a 4)), hexec, rfl, ?_, nofun, ?_, resultReg_of_idrOf rfl⟩
    · rintro _ _ (h | ⟨_, h⟩) <;> cases h
    · rintro _ h
      cases h
      exact ⟨rfl, rfl, noise s 0, noise s 1, sentFrame_effect (.read a 4) s rfl⟩

end Sys2Proof.Machine
end
